-- ==== Sys2Proof/Word.lean ====
section
/-! DEFINITION. The word types of SHA256-CORE: every value is unsigned and wraps at its width (00_scope.md R10, R11). -/

namespace Sys2Proof

/-- A message, buffer or digest byte. -/
abbrev Byte := BitVec 8

/-- A 32-bit unsigned word; `+` on it is the spec's `+w`, addition modulo 2^32 (R10, R11). -/
abbrev Word := BitVec 32

/-- A 64-bit unsigned value: LEN and the length field of the padding (R7). -/
abbrev DWord := BitVec 64

/-- The eight words H[0..7] (10_state.md R31). -/
abbrev HashState := Vector Word 8

/-- One 64-byte block, and equally the 64 bytes of the data bus (00_scope.md R7, 30_encoding.md R102). -/
abbrev Block := Vector Byte 64

/-- A 32-byte digest, byte j at index j (30_encoding.md R103). -/
abbrev Digest := Vector Byte 32

end Sys2Proof
end

