-- ==== Sys2Proof/Syntax.lean ====
section
/-! DEFINITION. The commands of SHA256-CORE, one constructor per row of spec/opcode_table.json, and the ports of an instance. -/

namespace Sys2Proof

/-- A command as its command word gives it (30_encoding.md R101, R107). The bytes of an UPDATE beat are no part of the
word: they stand on the data bus (R102, R105). -/
inductive Instr where
  /-- INIT: start a new session (43_accumulator.md R250). -/
  | init
  /-- UPDATE: absorb the first `n` bytes of the data bus; `n` is the field NBYTES, legal for 0 to 64 (R260). -/
  | update (n : BitVec 7)
  /-- FINAL: pad, compress and return the digest (R270). -/
  | final
  deriving DecidableEq, Repr

/-- The ports of one instance (30_encoding.md R100). -/
inductive Port where
  | command
  | response
  | status
  | len
  | digest
  | reset
  deriving DecidableEq, Repr

end Sys2Proof
end

