-- ==== Sys2Proof/WellFormed.lean ====
section
/-! DEFINITION. Which commands have a legal command word. -/

namespace Sys2Proof

/-- A command is well formed when its operand is one the encoding admits: UPDATE carries 0 to 64 bytes, while NBYTES 65
to 127 is illegal (30_encoding.md R105, R107, R108). INIT and FINAL have no operand. -/
def Instr.wellFormed : Instr → Bool
  | .init => true
  | .update n => decide (n.toNat ≤ 64)
  | .final => true

end Sys2Proof
end

