-- ==== Sys2Proof/Decode.lean ====
section
/-! DEFINITION. The command word's fields, its decoder, total on every 32-bit word and rejecting by name, and the encoder
(30_encoding.md R101, R105 to R109). -/

namespace Sys2Proof

/-- OP, bits 3:0 of the command word (R101). -/
def opField (w : BitVec 32) : BitVec 4 := w.extractLsb' 0 4

/-- NBYTES, bits 10:4 of the command word, read as an unsigned number (R101, R105). -/
def nbytesField (w : BitVec 32) : BitVec 7 := w.extractLsb' 4 7

/-- RSVD, bits 31:11 of the command word, which must be 0 (R101). -/
def rsvdField (w : BitVec 32) : BitVec 21 := w.extractLsb' 11 21

/-- Why a word is illegal (R108). -/
inductive DecodeError where
  /-- A bit of RSVD is set. -/
  | reservedBits
  /-- OP is 0x0 or in 0x4..0xF. -/
  | reservedOp (op : BitVec 4)
  /-- INIT with NBYTES ≠ 0. -/
  | initWithCount (n : BitVec 7)
  /-- UPDATE with NBYTES in 65..127. -/
  | updateTooLong (n : BitVec 7)
  /-- FINAL with NBYTES ≠ 0. -/
  | finalWithCount (n : BitVec 7)
  deriving DecidableEq, Repr

/-- `Legal(w)` as R108 writes it. The decoder does not call it; a statement says that the two agree. -/
def legal (w : BitVec 32) : Bool :=
  rsvdField w == 0 &&
    ((opField w == 0x1 && nbytesField w == 0) ||
     (opField w == 0x2 && decide ((nbytesField w).toNat ≤ 64)) ||
     (opField w == 0x3 && nbytesField w == 0))

/-- The decoder: every 32-bit word is exactly one of INIT, UPDATE n and FINAL, or is rejected by name (R108). -/
def decode (w : BitVec 32) : Except DecodeError Instr :=
  if rsvdField w ≠ 0 then .error .reservedBits
  else if opField w = 0x1 then
    if nbytesField w = 0 then .ok .init else .error (.initWithCount (nbytesField w))
  else if opField w = 0x2 then
    if (nbytesField w).toNat ≤ 64 then .ok (.update (nbytesField w)) else .error (.updateTooLong (nbytesField w))
  else if opField w = 0x3 then
    if nbytesField w = 0 then .ok .final else .error (.finalWithCount (nbytesField w))
  else .error (.reservedOp (opField w))

/-- The word of a command: the legal words of R107. -/
def encode : Instr → BitVec 32
  | .init => 0x00000001
  | .update n => 0x00000002 ||| (n.setWidth 32 <<< 4)
  | .final => 0x00000003

/-- The host's view of the decoder: a command is one 32-bit word numbered as the table numbers it (R9, R106), so a number
with a bit at or above `nbits`, or a width above 32, is no command. The bits from `nbits` up to 32 are 0. -/
def decodeTableWord (nbits w : Nat) : Option Instr :=
  if nbits ≤ 32 ∧ w < 2 ^ nbits then
    match decode (BitVec.ofNat 32 w) with
    | .ok i => some i
    | .error _ => none
  else none

end Sys2Proof
end

