-- ==== Sys2Proof/Machine/Constants.lean ====
section
/-! DEFINITION. The read-only tables K and IV (40_functions.md R150, R151, R153; 10_state.md R50, R51). The spec marks their
values [from general knowledge, not in source] and checks them by R152. -/

namespace Sys2Proof.Machine

/-- The rows r = 0 to 7 of R150's table, each read as one number: K[8r] is its most significant word, K[8r+7] its least. -/
def constantRows : List (BitVec 256) := [
  0x428a2f98_71374491_b5c0fbcf_e9b5dba5_3956c25b_59f111f1_923f82a4_ab1c5ed5,
  0xd807aa98_12835b01_243185be_550c7dc3_72be5d74_80deb1fe_9bdc06a7_c19bf174,
  0xe49b69c1_efbe4786_0fc19dc6_240ca1cc_2de92c6f_4a7484aa_5cb0a9dc_76f988da,
  0x983e5152_a831c66d_b00327c8_bf597fc7_c6e00bf3_d5a79147_06ca6351_14292967,
  0x27b70a85_2e1b2138_4d2c6dfc_53380d13_650a7354_766a0abb_81c2c92e_92722c85,
  0xa2bfe8a1_a81a664b_c24b8b70_c76c51a3_d192e819_d6990624_f40e3585_106aa070,
  0x19a4c116_1e376c08_2748774c_34b0bcb5_391c0cb3_4ed8aa4a_5b9cca4f_682e6ff3,
  0x748f82ee_78a5636f_84c87814_8cc70208_90befffa_a4506ceb_bef9a3f7_c67178f2]

/-- K[t]: word t mod 8 of row t div 8 (R150). -/
def roundConstant (t : Nat) : Word := (constantRows.getD (t / 8) 0).extractLsb' (224 - 32 * (t % 8)) 32

/-- K[0..63] (R150). -/
def roundConstants : Vector Word 64 := Vector.ofFn fun t : Fin 64 => roundConstant t.val

/-- IV[0..7], which reset and INIT load into H (R151). -/
def initialHash : HashState := #v[
  0x6a09e667, 0xbb67ae85, 0x3c6ef372, 0xa54ff53a, 0x510e527f, 0x9b05688c, 0x1f83d9ab, 0x5be0cd19]

end Sys2Proof.Machine
end

