-- ==== Sys2Proof/Machine/WordFunctions.lean ====
section
/-! DEFINITION. The word operators, byte-order primitives and bit functions (00_scope.md R11, R12; 40_functions.md R140 to
R145). The spec marks R140 to R145 [from general knowledge, not in source]; the model follows them as written. -/

namespace Sys2Proof.Machine

/-- `SHR(x, n)` for 0 ≤ n < 32 (R11). -/
def shr (x : Word) (n : Nat) : Word := x >>> n

/-- `ROTR(x, n)` for 0 < n < 32 (R11). -/
def rotr (x : Word) (n : Nat) : Word := shr x n ||| (x <<< (32 - n))

/-- `be32(b0, b1, b2, b3)`: four bytes read as a big-endian word (R12). -/
def be32 (b0 b1 b2 b3 : Byte) : Word := b0 ++ b1 ++ b2 ++ b3

/-- `unbe32(w)`: the four bytes of a word, most significant first (R12). -/
def unbe32 (w : Word) : Vector Byte 4 :=
  #v[w.extractLsb' 24 8, w.extractLsb' 16 8, w.extractLsb' 8 8, w.extractLsb' 0 8]

/-- `unbe64(v)`: the eight bytes of a 64-bit value, most significant first (R12). -/
def unbe64 (v : DWord) : Vector Byte 8 :=
  #v[v.extractLsb' 56 8, v.extractLsb' 48 8, v.extractLsb' 40 8, v.extractLsb' 32 8,
     v.extractLsb' 24 8, v.extractLsb' 16 8, v.extractLsb' 8 8, v.extractLsb' 0 8]

/-- `Ch(x, y, z)`, the choose-three bit function (R140). -/
def ch (x y z : Word) : Word := (x &&& y) ^^^ (~~~x &&& z)

/-- `Maj(x, y, z)`, the majority-of-three bit function (R141). -/
def maj (x y z : Word) : Word := (x &&& y) ^^^ (x &&& z) ^^^ (y &&& z)

/-- `Σ0(x)`, used by every round on the working variable a (R142). -/
def bigSigma0 (x : Word) : Word := rotr x 2 ^^^ rotr x 13 ^^^ rotr x 22

/-- `Σ1(x)`, used by every round on the working variable e (R143). -/
def bigSigma1 (x : Word) : Word := rotr x 6 ^^^ rotr x 11 ^^^ rotr x 25

/-- `σ0(x)`, the first mixing function of the message schedule (R144). -/
def smallSigma0 (x : Word) : Word := rotr x 7 ^^^ rotr x 18 ^^^ shr x 3

/-- `σ1(x)`, the second mixing function of the message schedule (R145). -/
def smallSigma1 (x : Word) : Word := rotr x 17 ^^^ rotr x 19 ^^^ shr x 10

end Sys2Proof.Machine
end

