-- ==== Sys2Proof/Machine/Compressor.lean ====
section
/-! DEFINITION. The message scheduler and the block compressor, two pure functions (41_compressor.md R180 to R195). -/

namespace Sys2Proof.Machine

/-- W[0..15]: the block read as big-endian words (R180). -/
def firstWords (b : Block) : List Word :=
  (List.range 16).map fun j =>
    be32 (b.toList.getD (4 * j) 0) (b.toList.getD (4 * j + 1) 0) (b.toList.getD (4 * j + 2) 0) (b.toList.getD (4 * j + 3) 0)

/-- W[t] from the schedule words before it, for t ≥ 16 (R181). -/
def nextScheduleWord (ws : List Word) (t : Nat) : Word :=
  smallSigma1 (ws.getD (t - 2) 0) + ws.getD (t - 7) 0 + smallSigma0 (ws.getD (t - 15) 0) + ws.getD (t - 16) 0

/-- A schedule extended by `k` words, the next of them W[t] for t its length (R181). -/
def extendSchedule : Nat → List Word → List Word
  | 0, ws => ws
  | k + 1, ws => extendSchedule k (ws ++ [nextScheduleWord ws ws.length])

/-- `Schedule(B)`: the 64 words W[0..63] of a block (R182). -/
def schedule (b : Block) : List Word := extendSchedule 48 (firstWords b)

/-- The working variables a..h (10_state.md R49). -/
structure Work where
  a : Word
  b : Word
  c : Word
  d : Word
  e : Word
  f : Word
  g : Word
  h : Word
  deriving DecidableEq, Repr

/-- The working variables loaded from H[0..7], in that order (R190). -/
def loadWork (h : HashState) : Work := ⟨h[0], h[1], h[2], h[3], h[4], h[5], h[6], h[7]⟩

/-- `Round(t)`, given K[t] and W[t]: every right-hand side reads the values from before the round (R191). -/
def compressRound (v : Work) (k w : Word) : Work :=
  let t1 := v.h + bigSigma1 v.e + ch v.e v.f v.g + k + w
  let t2 := bigSigma0 v.a + maj v.a v.b v.c
  { a := t1 + t2, b := v.a, c := v.b, d := v.c, e := v.d + t1, f := v.e, g := v.f, h := v.g }

/-- The first `n` rounds, t = 0 .. n-1, with no early exit (R193). -/
def compressRounds (ws : List Word) (n : Nat) (v : Work) : Work :=
  (List.range n).foldl (fun v t => compressRound v (roundConstant t) (ws.getD t 0)) v

/-- The final addition (R192). -/
def addWork (h : HashState) (v : Work) : HashState :=
  #v[h[0] + v.a, h[1] + v.b, h[2] + v.c, h[3] + v.d, h[4] + v.e, h[5] + v.f, h[6] + v.g, h[7] + v.h]

/-- `Compress(Hin, B)`: all 64 rounds, then the final addition (R190). -/
@[irreducible] def compress (h : HashState) (b : Block) : HashState :=
  addWork h (compressRounds (schedule b) 64 (loadWork h))

end Sys2Proof.Machine
end

