-- ==== Sys2Proof/Machine/Padding.lean ====
section
/-! DEFINITION. The padding and length encoder and the digest serializer, pure functions that only FINAL invokes
(42_padding.md R220 to R226, 44_serializer.md R300). -/

namespace Sys2Proof.Machine

/-- The length field: the message length in bits, modulo 2^64 (42_padding.md R221). -/
def bitLength (len : DWord) : DWord := 8 * len

/-- Byte `i` of a block of 56 zero bytes and the big-endian length field (R222). -/
def lengthBlockByte (len : DWord) (i : Nat) : Byte :=
  if i < 56 then 0x00 else (unbe64 (bitLength len)).toList.getD (i - 56) 0

/-- Byte `i` of the first padding block X: the `c` buffered bytes, the marker, zeros, and, where they fit, the eight bytes
of the length (R222). -/
def firstBlockByte (p : List Byte) (len : DWord) (i : Nat) : Byte :=
  if i < p.length then p.getD i 0
  else if i = p.length then 0x80
  else if p.length ≤ 55 then lengthBlockByte len i
  else 0x00

/-- `Pad(P, L)`: one block when c ≤ 55, two when the length spills (R222). -/
def padBlocks (p : List Byte) (len : DWord) : List Block :=
  let x : Block := Vector.ofFn fun i : Fin 64 => firstBlockByte p len i.val
  if p.length ≤ 55 then [x]
  else [x, Vector.ofFn fun i : Fin 64 => lengthBlockByte len i.val]

/-- `Serialize(H)`: each word big-endian, words in state order (44_serializer.md R300). -/
def serialize (h : HashState) : Digest :=
  Vector.ofFn fun j : Fin 32 => (unbe32 (h.toList.getD (j.val / 4) 0)).toList.getD (j.val % 4) 0

end Sys2Proof.Machine
end

