-- ==== Sys2Proof/Config.lean ====
section
/-! DEFINITION. What a platform fixes and the spec leaves open, and the free values. None of these has a body, so nothing
can be proved about what they are, and a statement holds whatever they are (93_implementation_defined.md U3, U9, U10, U12).
NUM_INSTANCES (U11) is an argument of the platform, Machine/Platform.lean. -/

namespace Sys2Proof

/-- The byte at an index of BUF after a reset action: `any value` (93 U3). The first argument is the draw, a counter of
State, the second the byte index; equal draws of two instances are equal (log 3). -/
opaque Config.freeByte : Nat → Nat → Byte

/-- Bits 11:0 of STATUS sampled while BUSY = 1, at a clock tick: `any value` (93 U9). Log 8. -/
opaque Config.freeStatus : Nat → BitVec 12

/-- LEN sampled while BUSY = 1, at a clock tick: `any value` (93 U9). Log 8. -/
opaque Config.freeLen : Nat → DWord

/-- DIGEST sampled while BUSY = 1, at a clock tick: `any value` (93 U9). Log 8. -/
opaque Config.freeDigest : Nat → Digest

/-- LAT_INIT less the one tick it is at least (70_reset_and_hazards.md R383). -/
opaque Config.latInitExtra : Nat

/-- LAT_UPDATE(n, c) less one, for n bytes at BUFCNT = c (R383). -/
opaque Config.latUpdateExtra : Nat → Nat → Nat

/-- LAT_FINAL(c) less one, at BUFCNT = c (R383). -/
opaque Config.latFinalExtra : Nat → Nat

/-- LAT_ERR less one (R383). -/
opaque Config.latErrExtra : Nat

/-- MMIO_MAP, the offset a platform that memory-maps the ports gives each of them (20_memory.md R86, 93 U12). DESIGN CHOICE
(log 10): one map is common to all instances, an offset being within the one instance that is read; the spec leaves open
whether the ports of different instances have different offsets. -/
opaque Config.mmioMap : Port → Nat

end Sys2Proof
end

