-- ==== Sys2Proof/Machine/State.lean ====
section
/-! DEFINITION. The state of one SHA256-CORE instance as plain data, its reset value, and the reasons a step can stop
(10_state.md R30 to R55). -/

namespace Sys2Proof.Machine

/-- PHASE, the session phase (10_state.md R35). The encoding's fourth value is never held, so it has no constructor
(93 U13, log 11). -/
inductive Phase where
  /-- 0: after reset or INIT, before any UPDATE. -/
  | fresh
  /-- 1: after one or more UPDATEs, before FINAL. -/
  | accum
  /-- 2: after FINAL, until INIT or reset. -/
  | finalized
  deriving DecidableEq, Repr

/-- A response code (30_encoding.md R104). Code 3 is never produced, so it has no constructor (93 U14, log 11). -/
inductive RespCode where
  /-- 0: the command completed and changed state as its rule says. -/
  | ok
  /-- 1: usage-contract violation. -/
  | eviolation
  /-- 2: the command word is not a legal encoding. -/
  | eillegal
  deriving DecidableEq, Repr

/-- The two errors a command can raise (60_exceptions.md R320). -/
inductive ErrorKind where
  /-- UPDATE or FINAL in phase FINALIZED (R322). -/
  | eviolation
  /-- An illegal command word (R321). -/
  | eillegal
  deriving DecidableEq, Repr

/-- What the response port carries for one completed command: RESP, and RDIGEST where it carries a digest
(30_encoding.md R100, R104). `none` is the spec's "no value", not a missing one (93 U5, log 6). -/
structure Response where
  code : RespCode
  digest : Option Digest
  deriving DecidableEq, Repr

/-- One transfer on the command port: CMD and the 64-byte data bus (R100 to R102). -/
structure Command where
  word : BitVec 32
  data : Block
  deriving DecidableEq, Repr

/-- What the host can do to an instance; observing STATUS, LEN and DIGEST changes nothing and is no action (R78, R114). -/
inductive HostAction where
  /-- Present a command word, legal or not, with the data bus. -/
  | command (c : Command)
  /-- Assert reset; loss of power is a reset too (60_exceptions.md R334). -/
  | reset
  deriving DecidableEq, Repr

/-- Reasons for the machine to stop with a fault. There is none: every error the spec has is a response, after which the
machine goes on (60_exceptions.md R320, R325), and every accepted command completes (70_reset_and_hazards.md R384). -/
inductive Fault where
  deriving DecidableEq, Repr

/-- Reasons for a refusal: the cases 93 part 1 treats by `refuse`, and the host's word for an instruction not reached. -/
inductive Refusal where
  /-- An arm of `exec` with no meaning yet; no arm raises it. Safe. -/
  | notModelled (mnemonic : String)
  /-- `readDigest` while DVALID = 0 (93 U4); no step raises it. Safe: the spec gives the read no value. -/
  | digestInvalid
  /-- `readRdigest` of a response other than a successful FINAL's (93 U5); no step raises it. Safe: as above. -/
  | rdigestInvalid
  /-- `fetch` and `timedTick`, for a reset asserted while a command executes (93 U7). Safe: the spec gives no state. -/
  | resetWhileBusy
  deriving DecidableEq, Repr

/-- The undriven data bus: 64 zero bytes, which no rule reads (DESIGN CHOICE, log 5). -/
def undrivenBus : Block := Vector.replicate 64 0

/-- A byte memory as the cells that differ from `unlistedByte`, by rising address. BUF is the only memory there is
(00_scope.md R13, 20_memory.md R70). -/
abbrev Memory := List Host.Cell

/-- The whole state. The first nine fields are the architectural state of 10_state.md R30; the last four are the model's
own: what the host has presented, the data bus, the response port and the free-value counter (logs 1, 3, 5, 6). -/
structure State where
  /-- H[0..7] (R31). -/
  h : HashState
  /-- BUF[0..63] (R32). -/
  buf : Memory
  /-- BUFCNT, 6 bits (R33). -/
  bufcnt : BitVec 6
  /-- LEN, 64 bits (R34). -/
  len : DWord
  /-- PHASE (R35). -/
  phase : Phase
  /-- DIGEST[0..31], `none` while invalid (R37, R250 "DIGEST <- invalid", log 4). -/
  digest : Option Digest
  /-- ERR, sticky (R42). -/
  err : Bool
  /-- LASTRESP (R43). -/
  lastResp : RespCode
  /-- BUSY (R44). -/
  busy : Bool
  /-- The host's actions not yet accepted, in the order in which they will be (20_memory.md R80, R84). -/
  pending : List HostAction
  /-- DATA[0..63] while a command executes (30_encoding.md R102). -/
  dataBus : Block
  /-- The response of the last completed command; `none` from reset to the first one (70_reset_and_hazards.md R370). -/
  response : Option Response
  /-- How many times free values have been drawn (log 3). -/
  freeCount : Nat
  deriving DecidableEq, Repr

/-- The machine right after reset (10_state.md R55). BUF, which the spec leaves unspecified, lists nothing, so every byte
reads 0x00 (DESIGN CHOICE, unsafe, log 2); the host has presented nothing. -/
def State.reset : State where
  h := initialHash
  buf := []
  bufcnt := 0
  len := 0
  phase := .fresh
  digest := none
  err := false
  lastResp := .ok
  busy := false
  pending := []
  dataBus := undrivenBus
  response := none
  freeCount := 0

end Sys2Proof.Machine
end

