-- ==== Sys2Proof/Machine/Ops.lean ====
section
/-! DEFINITION. The named operations over memory and state: BUF, absorbing a byte, accepting a command, responding, raising
an error, resetting (00_scope.md R13; 43_accumulator.md R262; 60_exceptions.md R325; 70_reset_and_hazards.md R370, R380). -/

namespace Sys2Proof.Machine

/-- What a byte of BUF that no cell lists reads as: the DESIGN CHOICE for BUF at reset (log 2). -/
def unlistedByte : Byte := 0x00

/-- The byte a memory holds at an address. -/
def Memory.read (m : Memory) (a : Nat) : Byte := (m.lookup a).getD unlistedByte

/-- A cell put at its place in a list of cells by rising address. -/
def Memory.insertCell (a : Nat) (b : Byte) : Memory → Memory
  | [] => [(a, b)]
  | c :: rest => if a < c.1 then (a, b) :: c :: rest else c :: Memory.insertCell a b rest

/-- A byte written: the old cell goes, and the new one is listed unless it holds what an unlisted address reads as. -/
def Memory.write (m : Memory) (a : Nat) (b : Byte) : Memory :=
  if b = unlistedByte then m.filter (fun c => c.1 != a) else Memory.insertCell a b (m.filter (fun c => c.1 != a))

/-- The canonical form: addresses strictly rising and below 64, and no cell that an unlisted address would read as. -/
def Memory.wf (m : Memory) : Bool :=
  decide (m.Pairwise fun c d => c.1 < d.1) && m.all fun c => decide (c.1 < 64) && c.2 != unlistedByte

/-- A memory with the given bytes at 0..63. -/
def Memory.ofBytes (f : Nat → Byte) : Memory := (List.range 64).foldl (fun m i => Memory.write m i (f i)) []

/-- `MemRead(i, 1)`: BUF[i] (R13). The index is six bits wide, so none lies outside BUF. -/
def memRead (s : State) (i : BitVec 6) : Byte := Memory.read s.buf i.toNat

/-- `MemWrite(i, 1, v)`: BUF[i] <- v (R13). -/
def memWrite (s : State) (i : BitVec 6) (v : Byte) : State := { s with buf := Memory.write s.buf i.toNat v }

/-- BUF[0..63] as one block (43_accumulator.md R262). -/
def bufBlock (s : State) : Block := Vector.ofFn fun i : Fin 64 => memRead s (BitVec.ofFin i)

/-- BUF[0..BUFCNT-1], the bytes received since the last block was compressed (10_state.md R32). -/
def bufferedBytes (s : State) : List Byte := (List.range s.bufcnt.toNat).map fun i => Memory.read s.buf i

/-- H <- Compress(H, BUF[0..63]); BUFCNT <- 0 (R262). -/
def compressBuffer (s : State) : State := { s with h := compress s.h (bufBlock s), bufcnt := 0 }

/-- One turn of UPDATE's loop: the byte goes to BUF[BUFCNT], BUFCNT counts up, and the 64th byte has the block compressed.
The transient value 64 (10_state.md R33) is a number here, never a value of the 6-bit field. -/
def absorbByte (s : State) (b : Byte) : State :=
  let t := memWrite s s.bufcnt b
  if s.bufcnt.toNat + 1 = 64 then compressBuffer t else { t with bufcnt := s.bufcnt + 1 }

/-- UPDATE's loop over the bytes of a beat, in message order (R262, 20_memory.md R72). -/
def absorbBytes (s : State) (bs : List Byte) : State := bs.foldl absorbByte s

/-- H <- Compress(H, X) for each padding block X, in order (43_accumulator.md R272). -/
def compressBlocks (h : HashState) (xs : List Block) : HashState := xs.foldl compress h

/-- A host action accepted: the command leaves the pending list, its data bus is driven, BUSY is 1 until the command
completes (10_state.md R44, R47; 70_reset_and_hazards.md R380). -/
def accept (c : Command) (rest : List HostAction) (s : State) : State :=
  { s with pending := rest, dataBus := c.data, busy := true }

/-- `respond(code, d)`: the response is presented and BUSY returns to 0 in the same step; the data bus was consumed
(30_encoding.md R104, 10_state.md R47, R380). -/
def respond (code : RespCode) (d : Option Digest) (s : State) : State :=
  { s with response := some { code := code, digest := d }, busy := false, dataBus := undrivenBus }

/-- The response code of an error (60_exceptions.md R320). -/
def errorCode : ErrorKind → RespCode
  | .eviolation => .eviolation
  | .eillegal => .eillegal

/-- `raise E`, the one way a command ends in an error: ERR <- 1, LASTRESP <- code(E), respond without a digest. Nothing is
saved and there is nothing to return to (60_exceptions.md R325, R326). -/
def raiseError (e : ErrorKind) (s : State) : State :=
  respond (errorCode e) none { s with err := true, lastResp := errorCode e }

/-- A new session: what reset and INIT both establish (10_state.md R55, 43_accumulator.md R250). BUF is not cleared. -/
def newSession (s : State) : State :=
  { s with h := initialHash, bufcnt := 0, len := 0, phase := .fresh, digest := none, err := false, lastResp := .ok }

/-- BUF with a free value in every byte, and the draw counted (93 U3). DESIGN CHOICE (log 3): the value is a function of the
draw's number, so two instances, or two runs, that are reset equally often draw the same bytes, where the spec lets them
differ (60_exceptions.md R332); unsafe for a statement that compares such bytes. -/
def freeBuf (s : State) : State :=
  { s with buf := Memory.ofBytes (Config.freeByte s.freeCount), freeCount := s.freeCount + 1 }

/-- The reset action: the state of 10_state.md R55, BUF unspecified, and no response; what the host has presented beyond
the reset stays presented (70_reset_and_hazards.md R370). -/
def applyReset (s : State) : State :=
  { newSession (freeBuf s) with busy := false, response := none, dataBus := undrivenBus }

/-- With nothing presented the core is idle and holds its state (60_exceptions.md R334). -/
def idle (s : State) : State := s

/-- A command presented while BUSY = 1 is not accepted and stays pending (70_reset_and_hazards.md R380 item 3). -/
def holdPending (s : State) : State := s

end Sys2Proof.Machine
end

