-- ==== Sys2Proof/Machine/Operands.lean ====
section
/-! DEFINITION. The operand forms: NBYTES and the bytes of a beat, the packed forms of the data and digest buses
(30_encoding.md R102, R103, R105). -/

namespace Sys2Proof.Machine

/-- NBYTES as a number, zero-extended, unscaled (R105). -/
def byteCount (n : BitVec 7) : Nat := n.toNat

/-- Whether a byte count is one UPDATE may carry (R101, R108). -/
def countLegal (n : BitVec 7) : Bool := decide (byteCount n ≤ 64)

/-- The operand of an UPDATE: DATA[0..n-1], in message order; DATA[n..63] is ignored (R102). -/
def beatBytes (n : BitVec 7) (s : State) : List Byte := s.dataBus.toList.take (byteCount n)

/-- The byte index of BUF to which byte `j` of a beat goes. -/
def storedIndex (s : State) (j : Nat) : Nat := (s.bufcnt.toNat + j) % 64

/-- The data bus read from its packed 512-bit form: DATA[i] = P[511-8i : 504-8i] (R102). -/
def unpackData (p : BitVec 512) : Block := Vector.ofFn fun i : Fin 64 => p.extractLsb' (504 - 8 * i.val) 8

/-- The packed 512-bit form of the data bus, DATA[0] in the most significant byte (R102). -/
def packData (b : Block) : BitVec 512 := b.toList.foldl (fun p x => (p <<< 8) ||| x.setWidth 512) 0

/-- The packed 256-bit form of a digest bus, byte 0 in the most significant byte (R103). -/
def packDigest (d : Digest) : BitVec 256 := d.toList.foldl (fun q x => (q <<< 8) ||| x.setWidth 256) 0

/-- A data bus that carries the given bytes from DATA[0] on and is undriven above them. -/
def driveBus (bs : List Byte) : Block := Vector.ofFn fun i : Fin 64 => bs.getD i.val 0

end Sys2Proof.Machine
end

