-- ==== Sys2Proof/Machine/Flags.lean ====
section
/-! DEFINITION. The observation registers: STATUS and its fields, LEN, DIGEST, and the digest of a response
(10_state.md R37 to R46, 30_encoding.md R103, R104). Sampling them has no side effect (20_memory.md R78). -/

namespace Sys2Proof.Machine

/-- The encoding of PHASE (10_state.md R35). -/
def phaseCode : Phase → BitVec 2
  | .fresh => 0
  | .accum => 1
  | .finalized => 2

/-- The encoding of a response code (30_encoding.md R104). -/
def respBits : RespCode → BitVec 2
  | .ok => 0
  | .eviolation => 1
  | .eillegal => 2

/-- DVALID: 1 exactly when PHASE = FINALIZED (R41). -/
def dvalid (s : State) : Bool := decide (s.phase = .finalized)

/-- STATUS = {19'b0, BUSY, LASTRESP, ERR, DVALID, BUFCNT, PHASE} (R38). -/
def statusReg (s : State) : BitVec 32 :=
  (0 : BitVec 19) ++ BitVec.ofBool s.busy ++ respBits s.lastResp ++ BitVec.ofBool s.err ++ BitVec.ofBool (dvalid s) ++
    s.bufcnt ++ phaseCode s.phase

/-- The LEN observation register (R46). -/
def lenReg (s : State) : DWord := s.len

/-- A read of the DIGEST register: allowed only while DVALID = 1, and refused otherwise (R37, 93 U4). -/
def readDigest (s : State) : Except Refusal Digest :=
  if dvalid s then
    match s.digest with
    | some d => .ok d
    | none => .error .digestInvalid
  else .error .digestInvalid

/-- A read of RDIGEST in a response: only a successful FINAL's carries a value (R104, 93 U5). -/
def readRdigest (r : Response) : Except Refusal Digest :=
  match r.code, r.digest with
  | .ok, some d => .ok d
  | _, _ => .error .rdigestInvalid

end Sys2Proof.Machine
end

