-- ==== Sys2Proof/Machine/Accumulator.lean ====
section
/-! DEFINITION. The meanings of the three commands INIT, UPDATE and FINAL (43_accumulator.md R250 to R286). Each runs on the
state `accept` leaves, with the command's bytes on the data bus. -/

namespace Sys2Proof.Machine

/-- INIT: start a new session, in every phase, and respond OK (R250). -/
def execInit (s : State) : Host.Outcome State Fault Refusal :=
  .next (respond .ok none (newSession s))

/-- UPDATE n: a count above 64 is an illegal word, checked before the phase; in FINALIZED it is a contract violation;
otherwise the beat is absorbed, LEN advances by n, and PHASE becomes ACCUM (R261, R262, R285). -/
def execUpdate (n : BitVec 7) (s : State) : Host.Outcome State Fault Refusal :=
  if countLegal n = false then .next (raiseError .eillegal s)
  else if s.phase = .finalized then .next (raiseError .eviolation s)
  else
    let t := absorbBytes s (beatBytes n s)
    .next (respond .ok none { t with len := s.len + n.setWidth 64, phase := .accum, lastResp := .ok })

/-- FINAL: in FINALIZED a contract violation; otherwise pad, compress the one or two blocks, and return the serialized
state, which DIGEST keeps. LEN is not changed (R271, R272). -/
def execFinal (s : State) : Host.Outcome State Fault Refusal :=
  if s.phase = .finalized then .next (raiseError .eviolation s)
  else
    let h := compressBlocks s.h (padBlocks (bufferedBytes s) s.len)
    .next (respond .ok (some (serialize h))
      { s with h := h, digest := some (serialize h), bufcnt := 0, phase := .finalized, lastResp := .ok })

end Sys2Proof.Machine
end

