-- ==== Sys2Proof/Machine/Fetch.lean ====
section
/-! DEFINITION. What the core does before a command's meaning: it takes the next host action, decodes a command word, and
completes by itself whatever is no legal command (43_accumulator.md R285; 60_exceptions.md R321, R324, R334;
70_reset_and_hazards.md R370, R380). -/

namespace Sys2Proof.Machine

/-- What the next host action asks for. -/
inductive Fetched where
  /-- A legal command, accepted: its meaning runs on this state. -/
  | run (i : Instr) (s : State)
  /-- No command to execute: this is the next state. -/
  | done (s : State)
  /-- The spec gives no next state. -/
  | refuse (r : Refusal)
  deriving DecidableEq, Repr

/-- A command that has been accepted is decoded; an illegal word raises EILLEGAL whatever the phase (R285, R321, R324). -/
def decodeAccepted (w : BitVec 32) (s : State) : Fetched :=
  match decode w with
  | .ok i => .run i s
  | .error _ => .done (raiseError .eillegal s)

/-- The next host action. While BUSY = 1 a command is held and a reset has no state the spec gives (R380, 93 U7). -/
def fetch (s : State) : Fetched :=
  match s.busy, s.pending with
  | true, .reset :: _ => .refuse .resetWhileBusy
  | true, _ => .done (holdPending s)
  | false, [] => .done (idle s)
  | false, .reset :: rest => .done (applyReset { s with pending := rest })
  | false, .command c :: rest => decodeAccepted c.word (accept c rest s)

/-- A command word presented so that the next step accepts it: it stands first on the command port, its data bus is all
zeros, and no command is executing. -/
def presentWord (s : State) (w : BitVec 32) : State :=
  { s with pending := .command { word := w, data := undrivenBus } :: s.pending, busy := false }

end Sys2Proof.Machine
end

