-- ==== Sys2Proof/Machine/Execute.lean ====
section
/-! DEFINITION. What becomes of a fetched action: a legal command runs its meaning, anything else is already done
(43_accumulator.md R285). -/

namespace Sys2Proof.Machine

/-- The outcome of a fetched action. -/
def execute : Fetched → Host.Outcome State Fault Refusal
  | .run i t => exec i t
  | .done t => .next t
  | .refuse r => .refused r

/-- The next state of an outcome, seen through a function; a stop stays the stop it is. -/
def mapNext {σ τ : Type} (f : σ → τ) : Host.Outcome σ Fault Refusal → Host.Outcome τ Fault Refusal
  | .next s => .next (f s)
  | .fault r => .fault r
  | .refused r => .refused r

end Sys2Proof.Machine
end

