-- ==== Sys2Proof/Machine/Step.lean ====
section
/-! DEFINITION. One step: the next host action, from acceptance to response, as one atomic step (20_memory.md R80). -/

namespace Sys2Proof.Machine

/-- One atomic step of the machine (R80, 43_accumulator.md R285). -/
def step (s : State) : Host.Outcome State Fault Refusal := execute (fetch s)

/-- The state in which the next step runs the command word `w`; the core fetches no instructions, so this stands for the
host presenting the word (10_state.md R36, log 1). The bits above `nbits` are 0. -/
def State.withFetchWord (s : State) (nbits w : Nat) : State := presentWord s (BitVec.ofNat 32 (w % 2 ^ nbits))

end Sys2Proof.Machine
end

