-- ==== Sys2Proof/Machine/Assembler.lean ====
section
/-! DEFINITION. Host-side sequences: issuing commands, the pseudo-instructions UPDATEN and HASH, and the assembler's operands
and lines (30_encoding.md R110 to R113, log 12). None of this is hardware. -/

namespace Sys2Proof.Machine

/-- The host issues one command: it is the next one accepted. -/
def issue (c : Command) (s : State) : Host.Outcome State Fault Refusal :=
  step { s with pending := .command c :: s.pending }

/-- The commands of one expansion, in order, up to the first response other than OK (R112, R113). -/
def issueAll : List Command → State → Host.Outcome State Fault Refusal
  | [], s => .next s
  | c :: cs, s =>
    match issue c s with
    | .next t => if t.lastResp = .ok then issueAll cs t else .next t
    | .fault r => .fault r
    | .refused r => .refused r

/-- `INIT`. -/
def initCommand : Command := { word := encode .init, data := undrivenBus }

/-- `FINAL`. -/
def finalCommand : Command := { word := encode .final, data := undrivenBus }

/-- `UPDATE len(bs), bs`, for at most 64 bytes (R111). -/
def updateCommand (bs : List Byte) : Command :=
  { word := encode (.update (BitVec.ofNat 7 bs.length)), data := driveBus bs }

/-- UPDATEN's expansion: full beats of 64 bytes and, if any byte is left, one beat with the rest; for no data one
`UPDATE 0` (R112). -/
def updatenCommands (data : List Byte) : List Command :=
  if data = [] then [updateCommand []]
  else (List.range ((data.length + 63) / 64)).map fun k => updateCommand ((data.drop (64 * k)).take 64)

/-- HASH's expansion: INIT, UPDATEN unless there is no data, FINAL (R113). -/
def hashCommands (data : List Byte) : List Command :=
  initCommand :: (if data = [] then [] else updatenCommands data) ++ [finalCommand]

/-- A byte operand of the assembler (R110). -/
inductive ByteOperand where
  /-- A quoted ASCII string, one byte per character. -/
  | ascii (text : String)
  /-- Two hex digits per byte. -/
  | hex (digits : String)
  /-- Copies of one byte. -/
  | copies (b : Byte) (k : Nat)
  deriving DecidableEq, Repr

/-- The value of a hex digit. -/
def hexDigit (c : Char) : Option Nat :=
  let n := c.toNat
  if 48 ≤ n ∧ n ≤ 57 then some (n - 48)
  else if 97 ≤ n ∧ n ≤ 102 then some (n - 87)
  else if 65 ≤ n ∧ n ≤ 70 then some (n - 55)
  else none

/-- The bytes of a string of hex digits, two each. -/
def hexBytes : List Char → Option (List Byte)
  | [] => some []
  | [_] => none
  | x :: y :: rest =>
    match hexDigit x, hexDigit y, hexBytes rest with
    | some a, some b, some bs => some (BitVec.ofNat 8 (16 * a + b) :: bs)
    | _, _, _ => none

/-- The bytes of an operand; none where it is not written as R110 says. -/
def operandBytes : ByteOperand → Option (List Byte)
  | .ascii text =>
    if text.toList.all fun c => decide (c.toNat < 128) then some (text.toList.map fun c => BitVec.ofNat 8 c.toNat) else none
  | .hex digits => hexBytes digits.toList
  | .copies b k => some (List.replicate k b)

/-- A line of the assembler (R110 to R113). -/
inductive AsmLine where
  | init
  | update (count : Option Nat) (operand : Option ByteOperand)
  | final
  | updaten (operand : ByteOperand)
  | hash (operand : ByteOperand)
  | comment (text : String)
  deriving DecidableEq, Repr

/-- A text of the assembler: lines, and REPEAT, the host's own control flow (R110). -/
inductive AsmText where
  | nil
  | line (l : AsmLine) (rest : AsmText)
  | loop (k : Nat) (body rest : AsmText)
  deriving DecidableEq, Repr

/-- Why a line does not assemble. -/
inductive AsmError where
  /-- The operand is not written as R110 says. -/
  | badOperand
  /-- The operand is missing, and the count is not 0. -/
  | noOperand
  /-- The operand has not exactly the count's bytes. -/
  | countMismatch
  /-- More than 64 bytes in one UPDATE (R110, R111). -/
  | tooLong
  deriving DecidableEq, Repr

/-- The command of an UPDATE line (R110, R111). -/
def assembleUpdate (count : Option Nat) (operand : Option ByteOperand) : Except AsmError Command :=
  match count, operand with
  | some n, none => if n = 0 then .ok (updateCommand []) else .error .noOperand
  | none, none => .error .noOperand
  | count, some o =>
    match operandBytes o with
    | none => .error .badOperand
    | some bs =>
      if 64 < bs.length then .error .tooLong
      else if count = none ∨ count = some bs.length then .ok (updateCommand bs)
      else .error .countMismatch

/-- The commands a line expands to. -/
def assembleLine : AsmLine → Except AsmError (List Command)
  | .init => .ok [initCommand]
  | .update n o => (assembleUpdate n o).map fun c => [c]
  | .final => .ok [finalCommand]
  | .updaten o => match operandBytes o with
    | some bs => .ok (updatenCommands bs)
    | none => .error .badOperand
  | .hash o => match operandBytes o with
    | some bs => .ok (hashCommands bs)
    | none => .error .badOperand
  | .comment _ => .ok []

/-- The expansions of a text, one per line, with each REPEAT body written out as often as it says. -/
def assemble : AsmText → Except AsmError (List (List Command))
  | .nil => .ok []
  | .line l rest => match assembleLine l, assemble rest with
    | .ok cs, .ok css => .ok (cs :: css)
    | .error e, _ => .error e
    | _, .error e => .error e
  | .loop k body rest => match assemble body, assemble rest with
    | .ok b, .ok r => .ok ((List.replicate k b).flatten ++ r)
    | .error e, _ => .error e
    | _, .error e => .error e

end Sys2Proof.Machine
end

