-- ==== Sys2Proof/Machine/Platform.lean ====
section
/-! DEFINITION. A platform with NUM_INSTANCES independent instances, and the address map it may give their ports
(10_state.md R53; 20_memory.md R83, R86; 60_exceptions.md R331, R332; logs 9, 10). -/

namespace Sys2Proof.Machine

/-- A platform of `n` instances: NUM_INSTANCES is open and at least 1, so the model takes it as an argument with that bound
(00_scope.md R8, 93 U11). Each instance has all the state of its own; only K and IV, which are constants, are shared (R53). -/
structure Platform (n : Nat) where
  instances : Vector State n
  /-- NUM_INSTANCES is at least 1 (R8). -/
  atLeastOne : 1 ≤ n
  deriving DecidableEq, Repr

/-- Every instance starts at reset, in FRESH (R332). -/
def platformReset (n : Nat) (h : 1 ≤ n) : Platform n := { instances := Vector.replicate n State.reset, atLeastOne := h }

/-- The host presents an action to one instance, behind what is already presented there. -/
def presentTo {n : Nat} (p : Platform n) (i : Fin n) (a : HostAction) : Platform n :=
  let s := p.instances[i]
  { p with instances := p.instances.set i { s with pending := s.pending ++ [a] } }

/-- One instance takes one step; instances are unordered among themselves, so any choice of `i` is one (R83). -/
def stepInstance {n : Nat} (p : Platform n) (i : Fin n) : Host.Outcome (Platform n) Fault Refusal :=
  mapNext (fun s => { p with instances := p.instances.set i s }) (step p.instances[i])

/-- What an observation register shows. -/
inductive Observed where
  | status (v : BitVec 32)
  | len (v : DWord)
  | digest (d : Digest)
  deriving DecidableEq, Repr

/-- The port at an offset of the platform's map, where there is one (R86). -/
def portAt (a : Nat) : Option Port :=
  [Port.command, .response, .status, .len, .digest, .reset].find? fun p => Config.mmioMap p == a

/-- A read of an observation register by its port; the other ports are not registers (30_encoding.md R100). -/
def observePort (s : State) : Port → Option (Except Refusal Observed)
  | .status => some (.ok (.status (statusReg s)))
  | .len => some (.ok (.len (lenReg s)))
  | .digest => some ((readDigest s).map .digest)
  | .command | .response | .reset => none

/-- A read of one instance through the address map common to all of them; which instance is read is the caller's (log 10). -/
def observeAt (s : State) (a : Nat) : Option (Except Refusal Observed) := (portAt a).bind (observePort s)

end Sys2Proof.Machine
end

