-- ==== Sys2Proof/Machine/Timed.lean ====
section
/-! DEFINITION. The timed binding of the command port, a layer over the atomic step: a command is accepted in one tick, runs
for its latency with BUSY = 1, and takes its whole effect in the tick in which it completes. The latencies are open
(70_reset_and_hazards.md R380 to R384, log 8). -/

namespace Sys2Proof.Machine

/-- A command in flight: its word, and the ticks left up to and with the one in which it completes. -/
structure Running where
  word : BitVec 32
  ticksLeft : Nat
  deriving DecidableEq, Repr

/-- An instance with a clock. -/
structure TimedState where
  /-- The instance; while a command is in flight, as the command's acceptance left it. -/
  core : State
  /-- The command in flight. -/
  running : Option Running
  /-- Ticks so far. -/
  clock : Nat
  deriving DecidableEq, Repr

/-- The instance after reset, with no command in flight. -/
def TimedState.reset : TimedState := { core := State.reset, running := none, clock := 0 }

/-- Ticks from acceptance to completion: a function of OP, NBYTES, PHASE, legality and BUFCNT alone, at least 1
(R382, R383). -/
def latency (w : BitVec 32) (s : State) : Nat :=
  match decode w, s.phase with
  | .ok .init, _ => 1 + Config.latInitExtra
  | .ok (.update n), .fresh | .ok (.update n), .accum => 1 + Config.latUpdateExtra n.toNat s.bufcnt.toNat
  | .ok .final, .fresh | .ok .final, .accum => 1 + Config.latFinalExtra s.bufcnt.toNat
  | .ok (.update _), .finalized | .ok .final, .finalized => 1 + Config.latErrExtra
  | .error _, _ => 1 + Config.latErrExtra

/-- One tick with no command in flight: a presented command is accepted, and BUSY becomes 1; anything else is the atomic
step (R380 items 1 and 2). A reset is one of them: it completes in this one tick with BUSY staying 0, which is a DESIGN CHOICE
(log 8), since R383 has latencies for commands and error responses only. -/
def timedAccept (t : TimedState) : Host.Outcome TimedState Fault Refusal :=
  match t.core.busy, t.core.pending with
  | false, .command c :: rest =>
    .next { core := accept c rest t.core, running := some ⟨c.word, latency c.word t.core⟩, clock := t.clock + 1 }
  | _, _ => mapNext (fun s => { core := s, running := none, clock := t.clock + 1 }) (step t.core)

/-- One tick with a command in flight: its last tick is its completion, with the response and BUSY = 0; until then whatever
the host presents is held (R380 items 2 and 3). -/
def timedProgress (t : TimedState) (r : Running) : Host.Outcome TimedState Fault Refusal :=
  if r.ticksLeft ≤ 1 then
    mapNext (fun s => { core := s, running := none, clock := t.clock + 1 }) (execute (decodeAccepted r.word t.core))
  else .next { t with running := some { r with ticksLeft := r.ticksLeft - 1 }, clock := t.clock + 1 }

/-- One tick. A reset asserted while a command is in flight has no state the spec gives (93 U7). -/
def timedTick (t : TimedState) : Host.Outcome TimedState Fault Refusal :=
  match t.running, t.core.pending with
  | none, _ => timedAccept t
  | some _, .reset :: _ => .refused .resetWhileBusy
  | some r, _ => timedProgress t r

/-- STATUS: while BUSY = 1 bit 12 reads 1, the reserved bits 0, and the other fields any value (R380 item 4, 93 U9). -/
def timedStatus (t : TimedState) : BitVec 32 :=
  if t.core.busy then (0 : BitVec 19) ++ (1 : BitVec 1) ++ Config.freeStatus t.clock else statusReg t.core

/-- LEN: any value while BUSY = 1 (R380 item 4, 93 U9). -/
def timedLen (t : TimedState) : DWord := if t.core.busy then Config.freeLen t.clock else lenReg t.core

/-- DIGEST: any value while BUSY = 1 (R380 item 4, 93 U9). -/
def timedDigest (t : TimedState) : Except Refusal Digest :=
  if t.core.busy then .ok (Config.freeDigest t.clock) else readDigest t.core

end Sys2Proof.Machine
end

