-- ==== Sys2Proof/Safety.lean ====
section
/-! DEFINITION. The terms claims are stated in: the launch premise and the end of a run, the invariants between commands,
states that differ in stale bytes only, and the digest of a message (10_state.md R32, R54; 42_padding.md R225;
70_reset_and_hazards.md R385, R386). -/

namespace Sys2Proof.Machine

/-- `CleanEntry`: exactly the reset state of 10_state.md R55, with BUF unspecified and no command in flight (R385). The
ports, which hold no state of the core's, are left open too. -/
def cleanEntry (s : State) : Bool :=
  s.h == initialHash && s.bufcnt == 0 && s.len == 0 && s.phase == .fresh && s.digest == none && s.err == false &&
    s.lastResp == .ok && s.busy == false

/-- The invariants of R54, one conjunct each, with what the registers say of one another (R37, R42, R43) and BUF in its
canonical form. R54's items 1, 4 and 5 hold by the types and the definition of DVALID. -/
structure SessionInv (s : State) : Prop where
  /-- Between commands no command executes (R44). -/
  idle : s.busy = false
  /-- BUF is in canonical form. -/
  bufWf : Memory.wf s.buf = true
  /-- R54 item 2. -/
  countIsLenMod : s.phase ≠ .finalized → s.bufcnt.toNat = s.len.toNat % 64
  /-- R54 item 3. -/
  freshIsEmpty : s.phase = .fresh → s.len = 0 ∧ s.bufcnt = 0 ∧ s.h = initialHash
  /-- R54 item 6. -/
  finalizedHasDigest : s.phase = .finalized → s.bufcnt = 0 ∧ s.digest = some (serialize s.h)
  /-- DIGEST is invalid outside FINALIZED (R37). -/
  digestOnlyFinalized : s.phase ≠ .finalized → s.digest = none
  /-- An error response leaves ERR set (R42, R325). -/
  errorIsSticky : s.lastResp ≠ .ok → s.err = true
  /-- LASTRESP is the code of the last response (R43). -/
  responseIsLast : ∀ r, s.response = some r → r.code = s.lastResp

/-- Two states that differ at most in the stale bytes BUF[BUFCNT..63] (R32). -/
def sameButStale (s t : State) : Prop :=
  { s with buf := [] } = { t with buf := [] } ∧ ∀ i < s.bufcnt.toNat, Memory.read s.buf i = Memory.read t.buf i

/-- Two states alike but for the data bus. What stands on it while no command executes is the model's choice (log 5), so a
statement that formalises a rule does not speak of it. -/
def alikeButBus (s t : State) : Prop := { s with dataBus := undrivenBus } = { t with dataBus := undrivenBus }

/-- The state after a list of commands, each issued after the response to the one before it, and the responses (R386). -/
def runCommands : List Command → State → Host.Outcome (State × List Response) Fault Refusal
  | [], s => .next (s, [])
  | c :: cs, s =>
    match issue c s with
    | .next t => mapNext (fun r => (r.1, t.response.toList ++ r.2)) (runCommands cs t)
    | .fault r => .fault r
    | .refused r => .refused r

/-- What is observed at the end of a run (R386). -/
structure RunObservation where
  responses : List Response
  status : BitVec 32
  len : DWord
  digest : Option Digest
  deriving DecidableEq, Repr

/-- The observation at the end of a run: DIGEST only if DVALID = 1 (R386). -/
def observeRun (cs : List Command) (s : State) : Host.Outcome RunObservation Fault Refusal :=
  mapNext (fun r => { responses := r.2, status := statusReg r.1, len := lenReg r.1, digest := (readDigest r.1).toOption })
    (runCommands cs s)

/-- A run of UPDATE beats and a FINAL that "produces digest d for message m": it starts from `CleanEntry`, the beats' bytes
concatenate to m, every response is OK, and FINAL's carries d (R386). -/
def producesDigest (s : State) (beats : List (List Byte)) (m : List Byte) (d : Digest) : Prop :=
  cleanEntry s = true ∧ (∀ b ∈ beats, b.length ≤ 64) ∧ beats.flatten = m ∧
    ∃ t rs, runCommands (beats.map updateCommand ++ [finalCommand]) s = .next (t, rs ++ [⟨.ok, some d⟩]) ∧
      ∀ r ∈ rs, r.code = .ok

/-- The padded message: the message, 0x80, the least number of zero bytes that fills the last block, and the length in bits
as a big-endian 64-bit value (42_padding.md R225). -/
def paddedMessage (m : List Byte) : List Byte :=
  m ++ [0x80] ++ List.replicate ((119 - m.length % 64) % 64) 0x00 ++ (unbe64 (bitLength (BitVec.ofNat 64 m.length))).toList

/-- The first `k` 64-byte blocks of a byte sequence. -/
def blocksOf : Nat → List Byte → List Block
  | 0, _ => []
  | k + 1, bs => driveBus (bs.take 64) :: blocksOf k (bs.drop 64)

/-- The digest of a message, as one function of it: the padded message's blocks compressed from IV, then serialized. -/
def messageDigest (m : List Byte) : Digest :=
  serialize (compressBlocks initialHash (blocksOf ((paddedMessage m).length / 64) (paddedMessage m)))

/-- What `n` ticks of the timed binding make of a state, up to the first stop (70_reset_and_hazards.md R380). -/
def timedRun : Nat → TimedState → Host.Outcome TimedState Fault Refusal
  | 0, t => .next t
  | n + 1, t =>
    match timedTick t with
    | .next u => timedRun n u
    | .fault r => .fault r
    | .refused r => .refused r

end Sys2Proof.Machine
end

