-- ==== Sys2Proof/Certificates/Slice0/Obligations.lean ====
section
/-! DEFINITION. The statements for the provers, from the numbered rules of spec/. A result is stated by writing the next
state out (`{ s with … }`), so that the statement is also its command's completion and its frame. `alikeButBus` leaves out
the data bus, whose value between commands is the model's choice (log 5) and has a statement of its own. Where the spec
marks a rule [derived] or [from general knowledge, not in source], the statement's basis is 'derived'. -/

open Sys2Proof Sys2Proof.Machine

/-! ### Encoding (30_encoding.md) -/

/-- R105, R107, R260: decoding a well-formed command's word gives the command back, for every byte count. -/
def Obligations.DecodeEncodeRoundTrip : Prop :=
  ∀ i : Instr, i.wellFormed = true → decode (encode i) = .ok i

/-- R107, R108: the decoder accepts exactly the legal words, and the word of what it accepts is the word it read; so every
word is exactly one command or illegal. -/
def Obligations.DecoderAcceptsExactlyLegalWords : Prop :=
  ∀ w : BitVec 32,
    match decode w with
    | .ok i => legal w = true ∧ i.wellFormed = true ∧ encode i = w
    | .error _ => legal w = false

/-- R107: the legal words the rule writes out decode to the commands it names, and the all-zero word of R108 to none. -/
def Obligations.SpecWordsDecode : Prop :=
  decode 0x00000001 = .ok .init ∧ decode 0x00000002 = .ok (.update 0) ∧ decode 0x00000012 = .ok (.update 1) ∧
    decode 0x00000032 = .ok (.update 3) ∧ decode 0x00000372 = .ok (.update 55) ∧ decode 0x00000382 = .ok (.update 56) ∧
    decode 0x00000402 = .ok (.update 64) ∧ decode 0x00000003 = .ok .final ∧ decode 0x00000000 = .error (.reservedOp 0)

/-! ### Dispatch, acceptance and errors (43_accumulator.md section 4, 60_exceptions.md) -/

/-- R36, R80, R285: when the next action is a command whose word decodes to `i`, the step is `exec i` on the state in which
the command was taken from the port, its bytes stand on the data bus, and BUSY is 1. -/
def Obligations.StepRunsDecodedCommand : Prop :=
  ∀ (s : State) (c : Command) (rest : List HostAction) (i : Instr),
    s.busy = false → s.pending = .command c :: rest → decode c.word = .ok i →
      step s = exec i { s with pending := rest, dataBus := c.data, busy := true }

/-- R285: Execute(w, DATA) as the rule writes it: legality first, then the operation, then the phase. -/
def Obligations.DispatchChecksLegalityThenPhase : Prop :=
  ∀ (s : State) (c : Command) (rest : List HostAction),
    s.busy = false → s.pending = .command c :: rest →
      let a : State := { s with pending := rest, dataBus := c.data, busy := true }
      let raises (e : RespCode) : Prop := ∃ t, step s = .next t ∧
        alikeButBus t { a with err := true, lastResp := e, response := some ⟨e, none⟩, busy := false }
      if legal c.word = false then raises .eillegal
      else if c.word.extractLsb' 0 4 = 0x1 then step s = exec .init a
      else if s.phase = .finalized then raises .eviolation
      else if c.word.extractLsb' 0 4 = 0x2 then step s = exec (.update (c.word.extractLsb' 4 7)) a
      else c.word.extractLsb' 0 4 = 0x3 ∧ step s = exec .final a

/-- R321: an illegal word, in every phase and for each of the rule's causes, records LASTRESP = 2 and ERR = 1, responds
EILLEGAL without a digest, and changes nothing else. -/
def Obligations.IllegalWordRespondsEillegal : Prop :=
  ∀ (s : State) (c : Command) (rest : List HostAction),
    s.busy = false → s.pending = .command c :: rest →
      (c.word.extractLsb' 0 4 = 0x0 ∨ 0x4 ≤ c.word.extractLsb' 0 4 ∨ c.word.extractLsb' 11 21 ≠ 0 ∨
        ((c.word.extractLsb' 0 4 = 0x1 ∨ c.word.extractLsb' 0 4 = 0x3) ∧ c.word.extractLsb' 4 7 ≠ 0) ∨
        (c.word.extractLsb' 0 4 = 0x2 ∧ 64 < (c.word.extractLsb' 4 7).toNat)) →
      ∃ t, step s = .next t ∧ alikeButBus t { s with
        pending := rest, err := true, lastResp := .eillegal, response := some ⟨.eillegal, none⟩ }

/-- R322: UPDATE and FINAL in FINALIZED record LASTRESP = 1 and ERR = 1, respond EVIOLATION without a digest, and change
nothing else, DIGEST and DVALID among it; INIT in FINALIZED is no violation. -/
def Obligations.FinalizedUseRespondsEviolation : Prop :=
  ∀ s : State, s.phase = .finalized →
    let v : State :=
      { s with err := true, lastResp := .eviolation, response := some ⟨.eviolation, none⟩, busy := false }
    (∀ n : BitVec 7, n.toNat ≤ 64 → ∃ t, exec (.update n) s = .next t ∧ alikeButBus t v) ∧
    (∃ t, exec .final s = .next t ∧ alikeButBus t v) ∧
    ∃ t, exec .init s = .next t ∧ t.lastResp = .ok ∧ t.err = false

/-- The model's choice (log 15): on a count above 64, which no legal word gives and so no step reaches (R108), the meaning of
UPDATE raises EILLEGAL in every phase, FINALIZED too, as `raise` of R325 writes it. -/
def Obligations.OverlongUpdateIsIllegal : Prop :=
  ∀ (n : BitVec 7) (s : State), 64 < n.toNat →
    ∃ t, exec (.update n) s = .next t ∧ alikeButBus t { s with
      err := true, lastResp := .eillegal, response := some ⟨.eillegal, none⟩, busy := false }

/-- R42: ERR is set by every error response, cleared by INIT and reset only, and otherwise left as it was. -/
def Obligations.ErrIsSticky : Prop :=
  ∀ s t : State, step s = .next t →
    t.err =
      match s.busy, s.pending with
      | true, _ => s.err
      | false, [] => s.err
      | false, .reset :: _ => false
      | false, .command c :: _ =>
        if t.response.map Response.code ≠ some .ok then true
        else if decode c.word = .ok .init then false
        else s.err

/-- R43: every completed command writes LASTRESP with the code of its response, INIT writes 0, reset writes 0, and the value
3 is never written. -/
def Obligations.LastRespIsCodeOfLastResponse : Prop :=
  ∀ s : State, s.busy = false →
    (∀ (c : Command) (rest : List HostAction), s.pending = .command c :: rest →
      ∃ t r, step s = .next t ∧ t.response = some r ∧ t.lastResp = r.code ∧ respBits t.lastResp ≠ 3 ∧
        (c.word = encode .init → respBits t.lastResp = 0)) ∧
    (∀ rest : List HostAction, s.pending = .reset :: rest → ∃ t, step s = .next t ∧ respBits t.lastResp = 0) ∧
    respBits .ok = 0 ∧ respBits .eviolation = 1 ∧ respBits .eillegal = 2

/-- R104, R100: an accepted command leaves exactly one response; it carries a digest only when it is OK and the command is
FINAL, and then the digest that DIGEST holds; every other response's RDIGEST is refused. -/
def Obligations.OnlyFinalRespondsWithDigest : Prop :=
  ∀ (s : State) (c : Command) (rest : List HostAction), s.busy = false → s.pending = .command c :: rest →
    ∃ t r, step s = .next t ∧ t.pending = rest ∧ t.response = some r ∧
      (if r.code = .ok ∧ c.word = encode .final then ∃ d, readRdigest r = .ok d ∧ readDigest t = .ok d
       else readRdigest r = .error .rdigestInvalid)

/-- R47, R380: every command that completes has consumed its data bus and ended with BUSY = 0, and leaves what else is
presented as it was. That a consumed bus reads as 64 zero bytes, and the free-value counter, are the model's (logs 3, 5). -/
def Obligations.CompletedCommandConsumesItsBus : Prop :=
  ∀ (i : Instr) (s t : State), exec i s = .next t →
    t.dataBus = undrivenBus ∧ t.busy = false ∧ t.pending = s.pending ∧ t.freeCount = s.freeCount

/-- R384, R325: no step stops the machine, but for a reset asserted while a command executes, which the spec leaves without
a state (93 U7, log 7). -/
def Obligations.EveryStepCompletes : Prop :=
  ∀ s : State,
    (∃ t, step s = .next t) ∨
      ((∃ rest, s.pending = .reset :: rest) ∧ s.busy = true ∧ step s = .refused .resetWhileBusy)

/-- R334, R380: with nothing presented the core holds its state, and while BUSY = 1 a presented command is held (log 7). -/
def Obligations.IdleAndBusyHoldState : Prop :=
  ∀ s : State, (s.busy = false ∧ s.pending = []) ∨ (s.busy = true ∧ ∀ rest, s.pending ≠ .reset :: rest) →
    step s = .next s

/-! ### INIT (43_accumulator.md section 1) and reset (70_reset_and_hazards.md) -/

/-- R250: INIT, the word 0x00000001, is legal in every phase; it loads IV, empties the buffer, zeroes LEN, starts phase
FRESH, makes DIGEST invalid, clears ERR, responds OK, and leaves everything else as it was (BUF, all stale now, has a
statement of its own, StaleBytesStayInPlace). STATUS then reads 0, and a second INIT changes nothing. -/
def Obligations.InitStartsNewSession : Prop :=
  (∀ w, decode w = .ok .init ↔ w = 0x00000001) ∧
  ∀ s : State, ∃ t, exec .init s = .next t ∧
    alikeButBus { t with buf := s.buf } { s with
      h := initialHash, bufcnt := 0, len := 0, phase := .fresh, digest := none, err := false, lastResp := .ok,
      response := some ⟨.ok, none⟩, busy := false } ∧
    statusReg t = 0 ∧ readDigest t = .error .digestInvalid ∧ exec .init t = .next t

/-- R55: every value after reset that the rule gives, in `State.reset` and after the reset action; the same after INIT. BUF
is unspecified and not spoken of (log 2). -/
def Obligations.ResetValues : Prop :=
  ∀ t : State,
    (t = State.reset ∨ (∃ s rest, s.busy = false ∧ s.pending = .reset :: rest ∧ step s = .next t) ∨
      ∃ s, exec .init s = .next t) →
    t.h = #v[0x6a09e667, 0xbb67ae85, 0x3c6ef372, 0xa54ff53a, 0x510e527f, 0x9b05688c, 0x1f83d9ab, 0x5be0cd19] ∧
      t.bufcnt = 0 ∧ t.len = 0 ∧ t.phase = .fresh ∧ readDigest t = .error .digestInvalid ∧ t.err = false ∧
      t.lastResp = .ok ∧ t.busy = false ∧ statusReg t = 0x00000000

/-- R370, R385: the reset action gives the state of R55, produces no response, and leaves what the host presented after it;
on the architectural state it does what INIT does. That the response port then holds none is the model's choice (log 6). BUF
is unspecified (93 U3): free bytes stand in it (log 3), and nothing is said of it but that it is in canonical form, which is
the model's choice (log 2). -/
def Obligations.ResetActionStartsCleanSession : Prop :=
  ∀ (s : State) (rest : List HostAction), s.busy = false → s.pending = .reset :: rest →
    ∃ t u, step s = .next t ∧ exec .init s = .next u ∧ cleanEntry t = true ∧ t.response = none ∧ t.pending = rest ∧
      Memory.wf t.buf = true ∧
      (t.h, t.bufcnt, t.len, t.phase, t.digest, t.err, t.lastResp, t.busy) =
        (u.h, u.bufcnt, u.len, u.phase, u.digest, u.err, u.lastResp, u.busy)

/-! ### UPDATE (43_accumulator.md section 2) -/

/-- R262: a legal UPDATE outside FINALIZED fills BUF from BUFCNT on with the bytes of the beat; a block completed by them is
compressed, and what remains of the beat is buffered from BUF[0] on: so BUF[0..BUFCNT-1] after it. LEN advances by n modulo
2^64, PHASE becomes ACCUM, the response is OK, and DIGEST and ERR keep their values. -/
def Obligations.UpdateAbsorbsBeat : Prop :=
  ∀ (n : BitVec 7) (s : State), n.toNat ≤ 64 → s.phase ≠ .finalized →
    let c := s.bufcnt.toNat
    let data (i : Nat) : Byte := s.dataBus.toList.getD i 0
    ∃ t, exec (.update n) s = .next t ∧
      t.bufcnt.toNat = (c + n.toNat) % 64 ∧
      t.len.toNat = (s.len.toNat + n.toNat) % 2 ^ 64 ∧
      t.phase = .accum ∧ t.lastResp = .ok ∧ t.response = some ⟨.ok, none⟩ ∧ t.busy = false ∧
      t.digest = s.digest ∧ t.err = s.err ∧ t.pending = s.pending ∧
      (c + n.toNat < 64 →
        t.h = s.h ∧
        ∀ a < c + n.toNat, Memory.read t.buf a = if a < c then Memory.read s.buf a else data (a - c)) ∧
      (64 ≤ c + n.toNat →
        t.h = compress s.h (Vector.ofFn fun i : Fin 64 => if i.val < c then Memory.read s.buf i.val else data (i.val - c)) ∧
        ∀ a < c + n.toNat - 64, Memory.read t.buf a = data (64 - c + a))

/-- The model's choice (log 2): bytes of BUF that become stale, whose values the spec does not fix (R32), stay as the
pseudocode of R250, R262 and R272 leaves them. After a completed block they are those of the block, as UPDATE's loop stored
them; INIT and FINAL store nothing; an address outside BUF reads as before. -/
def Obligations.StaleBytesStayInPlace : Prop :=
  (∀ (n : BitVec 7) (s : State), n.toNat ≤ 64 → s.phase ≠ .finalized → 64 ≤ s.bufcnt.toNat + n.toNat →
    ∃ t, exec (.update n) s = .next t ∧
      ∀ a, t.bufcnt.toNat ≤ a →
        Memory.read t.buf a =
          if s.bufcnt.toNat ≤ a ∧ a < 64 then s.dataBus.toList.getD (a - s.bufcnt.toNat) 0 else Memory.read s.buf a) ∧
  ∀ s : State, (∃ t, exec .init s = .next t ∧ t.buf = s.buf) ∧ ∃ t, exec .final s = .next t ∧ t.buf = s.buf

/-- R261, R262, R321, R322: what no UPDATE changes, whatever its count and the phase: the presented actions, the free-value
counter, DIGEST, and every byte of BUF outside the bytes stored to, at the addresses the meaning computes (for stale bytes
the model's choice, log 2); and a beat that is refused stores nothing and changes only ERR, LASTRESP and the ports. -/
def Obligations.UpdateFrame : Prop :=
  ∀ (n : BitVec 7) (s t : State), exec (.update n) s = .next t →
    t.pending = s.pending ∧ t.freeCount = s.freeCount ∧ t.digest = s.digest ∧
    (∀ a, (∀ j < n.toNat, storedIndex s j ≠ a) → Memory.read t.buf a = Memory.read s.buf a) ∧
    (64 < n.toNat ∨ s.phase = .finalized →
      t.h = s.h ∧ t.buf = s.buf ∧ t.bufcnt = s.bufcnt ∧ t.len = s.len ∧ t.phase = s.phase) ∧
    (n.toNat ≤ 64 → s.phase ≠ .finalized → t.err = s.err) ∧
    (s.bufcnt.toNat + n.toNat < 64 → t.h = s.h)

/-- R264 (n = 0): a zero-length UPDATE moves PHASE to ACCUM, responds OK, and changes nothing else. -/
def Obligations.ZeroLengthUpdateOnlyMovesPhase : Prop :=
  ∀ s : State, s.phase ≠ .finalized →
    ∃ t, exec (.update 0) s = .next t ∧ alikeButBus t { s with
      phase := .accum, lastResp := .ok, response := some ⟨.ok, none⟩, busy := false }

/-- R102: the bytes of the data bus at and above the count, and for INIT, FINAL and illegal words the whole bus, have no
effect on the state or the response. -/
def Obligations.DataBeyondCountIsIgnored : Prop :=
  ∀ (s : State) (c d : Command) (rest : List HostAction), s.busy = false → c.word = d.word →
    (∀ n, decode c.word = .ok (.update n) → ∀ i < n.toNat, c.data.toList.getD i 0 = d.data.toList.getD i 0) →
    step { s with pending := .command c :: rest } = step { s with pending := .command d :: rest }

/-- R34: LEN advances by n modulo 2^64 for a legal UPDATE of n bytes outside FINALIZED, INIT and reset set it to 0, and
nothing else writes it; the bit length of the padding is 8·LEN modulo 2^64. -/
def Obligations.LenCountsMessageBytes : Prop :=
  (∀ s t : State, step s = .next t →
    t.len.toNat =
      match s.busy, s.pending with
      | true, _ => s.len.toNat
      | false, [] => s.len.toNat
      | false, .reset :: _ => 0
      | false, .command c :: _ =>
        match decode c.word with
        | .ok .init => 0
        | .ok (.update n) => if s.phase = .finalized then s.len.toNat else (s.len.toNat + n.toNat) % 2 ^ 64
        | .ok .final => s.len.toNat
        | .error _ => s.len.toNat) ∧
  ∀ l : DWord, (bitLength l).toNat = (8 * l.toNat) % 2 ^ 64

/-- R266: beats that concatenate to the same bytes leave the same H, BUFCNT, LEN and BUF[0..BUFCNT-1], from every state
outside FINALIZED, and PHASE is ACCUM if there was a beat. With one-byte beats for the second list this says that the
result is that of absorbing the bytes one at a time. -/
def Obligations.ChunkingInvariance : Prop :=
  ∀ (s : State) (l₁ l₂ : List (List Byte)), s.busy = false → s.phase ≠ .finalized →
    (∀ b ∈ l₁, b.length ≤ 64) → (∀ b ∈ l₂, b.length ≤ 64) → l₁.flatten = l₂.flatten →
    ∃ t₁ rs₁ t₂ rs₂,
      runCommands (l₁.map updateCommand) s = .next (t₁, rs₁) ∧ runCommands (l₂.map updateCommand) s = .next (t₂, rs₂) ∧
      t₁.h = t₂.h ∧ t₁.bufcnt = t₂.bufcnt ∧ t₁.len = t₂.len ∧
      (∀ i < t₁.bufcnt.toNat, Memory.read t₁.buf i = Memory.read t₂.buf i) ∧
      (l₁ ≠ [] → t₁.phase = .accum) ∧ ∀ r ∈ rs₁, r.code = .ok

/-! ### FINAL (43_accumulator.md section 3), padding and the serializer -/

/-- R272, with R222: FINAL outside FINALIZED compresses the one padding block when at most 55 bytes are buffered, and the two
blocks otherwise; it writes DIGEST and the response with Serialize(H), BUFCNT 0, PHASE FINALIZED, and leaves LEN, ERR and
everything else as it was (BUF, all stale now, has a statement of its own, StaleBytesStayInPlace). -/
def Obligations.FinalPadsCompressesAndReturnsDigest : Prop :=
  ∀ s : State, s.phase ≠ .finalized →
    let p := bufferedBytes s
    let l := (unbe64 (8 * s.len)).toList
    let h :=
      if s.bufcnt.toNat ≤ 55 then
        compress s.h (driveBus (p ++ [0x80] ++ List.replicate (55 - s.bufcnt.toNat) 0 ++ l))
      else
        compress (compress s.h (driveBus (p ++ [0x80] ++ List.replicate (63 - s.bufcnt.toNat) 0)))
          (driveBus (List.replicate 56 0 ++ l))
    ∃ t, exec .final s = .next t ∧ alikeButBus { t with buf := s.buf } { s with
      h := h, digest := some (serialize h), bufcnt := 0, phase := .finalized, lastResp := .ok,
      response := some ⟨.ok, some (serialize h)⟩, busy := false }

/-- R221, R222: the blocks of Pad, byte for byte, and the length field. -/
def Obligations.PadBlocksByteForByte : Prop :=
  ∀ (p : List Byte) (len : DWord), p.length ≤ 63 →
    (bitLength len).toNat = (8 * len.toNat) % 2 ^ 64 ∧
    (padBlocks p len).map Vector.toList =
      if p.length ≤ 55 then
        [p ++ [0x80] ++ List.replicate (55 - p.length) 0x00 ++ (unbe64 (bitLength len)).toList]
      else
        [p ++ [0x80] ++ List.replicate (63 - p.length) 0x00,
         List.replicate 56 0x00 ++ (unbe64 (bitLength len)).toList]

/-- R225, R223: the whole blocks of a message followed by Pad's blocks for the rest of it are the message, 0x80, the least
number of zero bytes that fills the last block, and the length in bits. -/
def Obligations.PadCompletesMessage : Prop :=
  ∀ m : List Byte,
    m.take (64 * (m.length / 64)) ++
        ((padBlocks (m.drop (64 * (m.length / 64))) (BitVec.ofNat 64 m.length)).map Vector.toList).flatten =
      paddedMessage m ∧
    (paddedMessage m).length % 64 = 0 ∧ (paddedMessage m).length < m.length + 1 + 8 + 64

/-- R300: the bytes of Serialize(H): each word big-endian, words in state order. -/
def Obligations.SerializeWritesWordsBigEndian : Prop :=
  ∀ (h : HashState) (i : Fin 8),
    (serialize h)[4 * i.val] = h[i].extractLsb' 24 8 ∧ (serialize h)[4 * i.val + 1] = h[i].extractLsb' 16 8 ∧
      (serialize h)[4 * i.val + 2] = h[i].extractLsb' 8 8 ∧ (serialize h)[4 * i.val + 3] = h[i].extractLsb' 0 8

/-- R301: Serialize is a bijection from eight words to 32 bytes, and be32 of each four bytes is its inverse. -/
def Obligations.SerializeIsBijective : Prop :=
  (∀ (h : HashState) (i : Fin 8),
    be32 (serialize h)[4 * i.val] (serialize h)[4 * i.val + 1] (serialize h)[4 * i.val + 2] (serialize h)[4 * i.val + 3] =
      h[i]) ∧
  ∀ d : Digest, ∃ h : HashState, serialize h = d

/-! ### Word functions, constants, scheduler and compressor (40_functions.md, 41_compressor.md) -/

/-- R12: be32 and unbe32 are inverse, and give the numbers and bytes the rule writes; unbe64 is most significant first. -/
def Obligations.ByteOrderPrimitives : Prop :=
  (∀ b0 b1 b2 b3 : Byte,
    (be32 b0 b1 b2 b3).toNat = b0.toNat * 2 ^ 24 + b1.toNat * 2 ^ 16 + b2.toNat * 2 ^ 8 + b3.toNat ∧
    unbe32 (be32 b0 b1 b2 b3) = #v[b0, b1, b2, b3]) ∧
  (∀ w : Word,
    unbe32 w = #v[w.extractLsb' 24 8, w.extractLsb' 16 8, w.extractLsb' 8 8, w.extractLsb' 0 8] ∧
    be32 (unbe32 w)[0] (unbe32 w)[1] (unbe32 w)[2] (unbe32 w)[3] = w) ∧
  ∀ (v : DWord) (i : Fin 8), (unbe64 v)[i] = v.extractLsb' (56 - 8 * i.val) 8

/-- R11: SHR drops the low bits and ROTR rotates, bit by bit, for every amount the rule admits. -/
def Obligations.ShiftAndRotateBits : Prop :=
  ∀ (x : Word) (n i : Nat), n < 32 → i < 32 →
    (shr x n).toNat = x.toNat / 2 ^ n ∧ (0 < n → (rotr x n).getLsbD i = x.getLsbD ((i + n) % 32))

/-- R140, R141 (which the spec marks [from general knowledge, not in source]): Ch chooses and Maj takes the majority, in
each bit position. -/
def Obligations.ChooseAndMajorityBits : Prop :=
  ∀ (x y z : Word) (i : Nat), i < 32 →
    (ch x y z).getLsbD i = (if x.getLsbD i then y.getLsbD i else z.getLsbD i) ∧
    (maj x y z).getLsbD i =
      decide (2 ≤ (x.getLsbD i).toNat + (y.getLsbD i).toNat + (z.getLsbD i).toNat)

/-- R142 to R146 (marked [from general knowledge, not in source] and [derived]): the four mixing functions as rotations and
shifts, and their corner cases. -/
def Obligations.MixingFunctionsAndCorners : Prop :=
  (∀ x : Word,
    bigSigma0 x = x.rotateRight 2 ^^^ x.rotateRight 13 ^^^ x.rotateRight 22 ∧
    bigSigma1 x = x.rotateRight 6 ^^^ x.rotateRight 11 ^^^ x.rotateRight 25 ∧
    smallSigma0 x = x.rotateRight 7 ^^^ x.rotateRight 18 ^^^ x >>> 3 ∧
    smallSigma1 x = x.rotateRight 17 ^^^ x.rotateRight 19 ^^^ x >>> 10) ∧
  bigSigma0 0 = 0 ∧ bigSigma1 0 = 0 ∧ smallSigma0 0 = 0 ∧ smallSigma1 0 = 0 ∧ ch 0 0 0 = 0 ∧ maj 0 0 0 = 0 ∧
  bigSigma0 0xFFFFFFFF = 0xFFFFFFFF ∧ bigSigma1 0xFFFFFFFF = 0xFFFFFFFF ∧
  smallSigma0 0xFFFFFFFF = 0x1FFFFFFF ∧ smallSigma1 0xFFFFFFFF = 0x003FFFFF

/-- R152 (marked [from general knowledge, not in source]): K[i] and IV[i] are the first 32 fractional bits of the cube and
square roots of the i-th prime; `q` is the root's whole part. -/
def Obligations.ConstantsArePrimeRoots : Prop :=
  let primes := (List.range 312).filter fun n => decide (2 ≤ n) && (List.range n).all fun d => d < 2 || n % d != 0
  primes.length = 64 ∧
  (∀ i : Fin 64, ∃ q, (q * 2 ^ 32 + roundConstants[i].toNat) ^ 3 ≤ primes.getD i.val 0 * 2 ^ 96 ∧
    primes.getD i.val 0 * 2 ^ 96 < (q * 2 ^ 32 + roundConstants[i].toNat + 1) ^ 3) ∧
  ∀ i : Fin 8, ∃ q, (q * 2 ^ 32 + initialHash[i].toNat) ^ 2 ≤ primes.getD i.val 0 * 2 ^ 64 ∧
    primes.getD i.val 0 * 2 ^ 64 < (q * 2 ^ 32 + initialHash[i].toNat + 1) ^ 2

/-- R180, R181, R182 (R181's taps are marked [from general knowledge, not in source]): the 64 words of a block's schedule. -/
def Obligations.ScheduleRecurrence : Prop :=
  ∀ b : Block,
    let w (t : Nat) : Word := (schedule b).getD t 0
    (schedule b).length = 64 ∧
    (∀ j : Fin 16, w j.val = be32 b[4 * j.val] b[4 * j.val + 1] b[4 * j.val + 2] b[4 * j.val + 3]) ∧
    ∀ t, 16 ≤ t → t < 64 → w t = smallSigma1 (w (t - 2)) + w (t - 7) + smallSigma0 (w (t - 15)) + w (t - 16)

/-- R190 to R193 (R191 is marked [from general knowledge, not in source]): a compression is 64 rounds from H, each as the
rule writes it, and the final addition. -/
def Obligations.CompressIsSixtyFourRounds : Prop :=
  ∀ (h : HashState) (b : Block), ∃ v : Nat → Work,
    v 0 = ⟨h[0], h[1], h[2], h[3], h[4], h[5], h[6], h[7]⟩ ∧
    (∀ t : Fin 64,
      let p := v t.val
      let t1 := p.h + bigSigma1 p.e + ch p.e p.f p.g + roundConstants[t] + (schedule b).getD t.val 0
      let t2 := bigSigma0 p.a + maj p.a p.b p.c
      v (t.val + 1) = ⟨t1 + t2, p.a, p.b, p.c, p.d + t1, p.e, p.f, p.g⟩) ∧
    compress h b = #v[h[0] + (v 64).a, h[1] + (v 64).b, h[2] + (v 64).c, h[3] + (v 64).d,
      h[4] + (v 64).e, h[5] + (v 64).f, h[6] + (v 64).g, h[7] + (v 64).h]

/-- R194, R195 (marked [derived]): the corner cases of Compress and the padded block of "abc". -/
def Obligations.CompressKnownAnswers : Prop :=
  compress initialHash (Vector.replicate 64 0x00) =
    #v[0xda5698be, 0x17b9b469, 0x62335799, 0x779fbeca, 0x8ce5d491, 0xc0d26243, 0xbafef9ea, 0x1837a9d8] ∧
  compress initialHash (Vector.replicate 64 0xff) =
    #v[0xef0c748d, 0xf4da50a8, 0xd6c43c01, 0x3edc3ce7, 0x6c9d9fa9, 0xa1458ade, 0x56eb86c0, 0xa64492d2] ∧
  compress (Vector.replicate 8 0) (Vector.replicate 64 0x00) =
    #v[0x7ca51614, 0x425c3ba8, 0xce54dd2f, 0xc2020ae7, 0xb6e574d1, 0x98136d0f, 0xae7e26cc, 0xbf0be7a6] ∧
  compress initialHash (driveBus ([0x61, 0x62, 0x63, 0x80] ++ List.replicate 59 0x00 ++ [0x18])) =
    #v[0xba7816bf, 0x8f01cfea, 0x414140de, 0x5dae2223, 0xb00361a3, 0x96177a9c, 0xb410ff61, 0xf20015ad]

/-! ### The buses (30_encoding.md R102, R103) and the observation registers (10_state.md) -/

/-- R102: DATA[i] = P[511-8i : 504-8i], packing and unpacking are inverse, and word j of a full beat's packed form is the
schedule word W[j]. -/
def Obligations.PackedDataWordsAreScheduleWords : Prop :=
  (∀ (b : Block) (i : Fin 64), (packData b).extractLsb' (504 - 8 * i.val) 8 = b[i]) ∧
  ∀ p : BitVec 512, packData (unpackData p) = p ∧
    ∀ j : Fin 16, (schedule (unpackData p)).getD j.val 0 = p.extractLsb' (480 - 32 * j.val) 32

/-- R103: byte j of a digest bus is Q[255-8j : 248-8j], and Q[255-32i : 224-32i] of a serialized state is H[i]. -/
def Obligations.PackedDigestWordsAreHash : Prop :=
  (∀ (d : Digest) (j : Fin 32), (packDigest d).extractLsb' (248 - 8 * j.val) 8 = d[j]) ∧
  ∀ (h : HashState) (i : Fin 8), (packDigest (serialize h)).extractLsb' (224 - 32 * i.val) 32 = h[i]

/-- R38, with R35, R41, R43 and R45: every field of STATUS at its place, its legal values, and its reset value. -/
def Obligations.StatusLayout : Prop :=
  (∀ s : State,
    (statusReg s).extractLsb' 0 2 = (match s.phase with | .fresh => 0 | .accum => 1 | .finalized => 2) ∧
    (statusReg s).extractLsb' 2 6 = s.bufcnt ∧
    ((statusReg s).getLsbD 8 = true ↔ s.phase = .finalized) ∧
    (statusReg s).getLsbD 9 = s.err ∧
    (statusReg s).extractLsb' 10 2 = (match s.lastResp with | .ok => 0 | .eviolation => 1 | .eillegal => 2) ∧
    (statusReg s).getLsbD 12 = s.busy ∧
    (statusReg s).extractLsb' 13 19 = 0) ∧
  statusReg State.reset = 0

/-- R37: between commands DIGEST reads as Serialize(H) in FINALIZED, and in every other phase the read has no value. -/
def Obligations.DigestReadableExactlyWhenFinalized : Prop :=
  ∀ s : State, SessionInv s →
    readDigest s = if s.phase = .finalized then .ok (serialize s.h) else .error .digestInvalid

/-- R37, R322: while DIGEST is valid nothing changes it, nor H, BUF, BUFCNT and LEN, until an INIT or a reset. -/
def Obligations.DigestImmutableWhileValid : Prop :=
  ∀ s t : State, s.phase = .finalized → step s = .next t →
    (t.phase = .finalized ∧ t.digest = s.digest ∧ t.h = s.h ∧ t.buf = s.buf ∧ t.bufcnt = s.bufcnt ∧ t.len = s.len) ∨
    (t.phase = .fresh ∧ t.digest = none ∧ s.busy = false ∧
      ((∃ rest, s.pending = .reset :: rest) ∨ ∃ c rest, s.pending = .command c :: rest ∧ c.word = encode .init))

/-! ### Whole-machine rules -/

/-- R280: the table of the phase machine, phase and response for every word in every phase. -/
def Obligations.PhaseTransitionTable : Prop :=
  ∀ (s : State) (c : Command) (rest : List HostAction), s.busy = false → s.pending = .command c :: rest →
    ∃ t r, step s = .next t ∧ t.response = some r ∧
      (t.phase, r.code) =
        match decode c.word, s.phase with
        | .ok .init, _ => (.fresh, .ok)
        | .ok (.update _), .finalized => (.finalized, .eviolation)
        | .ok (.update _), _ => (.accum, .ok)
        | .ok .final, .finalized => (.finalized, .eviolation)
        | .ok .final, _ => (.finalized, .ok)
        | .error _, p => (p, .eillegal)

/-- R31: only reset and INIT, which load IV, and the block compressor change H: an UPDATE compresses one block, when the
beat completes it, and FINAL one or two. -/
def Obligations.HashChangesOnlyByLoadOrCompression : Prop :=
  ∀ s t : State, step s = .next t → t.h ≠ s.h →
    s.busy = false ∧
    ((∃ rest, s.pending = .reset :: rest) ∧ t.h = initialHash ∨
      ∃ c rest, s.pending = .command c :: rest ∧
        match decode c.word with
        | .ok .init => t.h = initialHash
        | .ok (.update n) => 64 ≤ s.bufcnt.toNat + n.toNat ∧ ∃ b, t.h = compress s.h b
        | .ok .final => (∃ b, t.h = compress s.h b) ∨ ∃ b d, t.h = compress (compress s.h b) d
        | .error _ => False)

/-- R54 (marked [derived]): every step keeps the invariants between commands, from every state that meets them. The
canonical form of BUF among them is the model's (log 2). -/
def Obligations.StepKeepsSessionInvariants : Prop :=
  ∀ s t : State, SessionInv s → step s = .next t → SessionInv t

/-- R54, R55: the state after reset meets the invariants. -/
def Obligations.ResetMeetsSessionInvariants : Prop := SessionInv State.reset

/-- R32, R52, 93 U3: no rule reads a stale byte. Two states that differ in stale bytes only stay so, step after step, with the
same responses and the same observation registers. -/
def Obligations.StaleBytesAreNeverRead : Prop :=
  ∀ s t : State, sameButStale s t →
    match step s, step t with
    | .next s', .next t' => sameButStale s' t' ∧ s'.response = t'.response ∧ statusReg s' = statusReg t' ∧
        lenReg s' = lenReg t' ∧ readDigest s' = readDigest t'
    | .refused r, .refused r' => r = r'
    | _, _ => False

/-- The model's canonical form (log 2): two memories in canonical form that read alike are the same memory. -/
def Obligations.CanonicalBufIsDeterminedByReads : Prop :=
  ∀ m k : Memory, Memory.wf m = true → Memory.wf k = true → (∀ a < 64, Memory.read m a = Memory.read k a) → m = k

/-- R266, R270, R286, R385, R386: from every state with no command in flight, INIT, any beats, and FINAL respond OK each
time, and the digest is the one function `messageDigest` of the concatenated bytes; STATUS then reads 0x00000102 and LEN is
the message length modulo 2^64. -/
def Obligations.SessionReturnsMessageDigest : Prop :=
  ∀ (s : State) (beats : List (List Byte)), s.busy = false → (∀ b ∈ beats, b.length ≤ 64) →
    ∃ t rs,
      runCommands (initCommand :: beats.map updateCommand ++ [finalCommand]) s =
        .next (t, rs ++ [⟨.ok, some (messageDigest beats.flatten)⟩]) ∧
      (∀ r ∈ rs, r = ⟨.ok, none⟩) ∧ rs.length = beats.length + 1 ∧
      readDigest t = .ok (messageDigest beats.flatten) ∧ statusReg t = 0x00000102 ∧
      lenReg t = BitVec.ofNat 64 beats.flatten.length

/-- R385, R386: a run from `CleanEntry` produces the digest of its message, and no other digest. -/
def Obligations.CleanEntryRunProducesMessageDigest : Prop :=
  ∀ (s : State) (beats : List (List Byte)) (d : Digest), cleanEntry s = true → (∀ b ∈ beats, b.length ≤ 64) →
    (producesDigest s beats beats.flatten d ↔ d = messageDigest beats.flatten)

/-- R112: UPDATEN absorbs all of its data outside FINALIZED, as one byte after another, and in FINALIZED stops at the first
beat with EVIOLATION. That all of BUF, and not BUF[0..BUFCNT-1] alone, is as the bytes absorbed one by one leave it is the
model's choice of stale bytes (log 2). -/
def Obligations.UpdatenAbsorbsData : Prop :=
  ∀ (s : State) (data : List Byte), s.busy = false →
    ∃ t, issueAll (updatenCommands data) s = .next t ∧
      if s.phase = .finalized then
        t.lastResp = .eviolation ∧ t.h = s.h ∧ t.buf = s.buf ∧ t.bufcnt = s.bufcnt ∧ t.len = s.len ∧ t.digest = s.digest
      else
        t.lastResp = .ok ∧ t.phase = .accum ∧ t.h = (absorbBytes s data).h ∧ t.bufcnt = (absorbBytes s data).bufcnt ∧
        t.buf = (absorbBytes s data).buf ∧ t.len = s.len + BitVec.ofNat 64 data.length ∧ t.err = s.err

/-- R113: HASH returns the digest of its data from every state with no command in flight, empty data included. -/
def Obligations.HashReturnsMessageDigest : Prop :=
  ∀ (s : State) (data : List Byte), s.busy = false →
    ∃ t, issueAll (hashCommands data) s = .next t ∧ t.response = some ⟨.ok, some (messageDigest data)⟩ ∧
      readDigest t = .ok (messageDigest data)

/-! ### The timed binding and several instances -/

/-- In the timed binding (R380, R383) a presented command is accepted in one tick, BUSY reads 1 for as many ticks as its
latency, in which nothing presented is accepted, and then the atomic step's state stands, with BUSY = 0. That time goes in
ticks and the whole effect falls in the last one is the model's choice (log 8), and so is the previous response standing until
then (log 6). A reset presented behind the command is left out, since the spec gives no state for it (93 U7, log 7). -/
def Obligations.TimedBindingRefinesAtomicStep : Prop :=
  ∀ (t : TimedState) (c : Command) (rest : List HostAction) (u : State),
    t.running = none → t.core.busy = false → t.core.pending = .command c :: rest →
    (∀ more, rest ≠ .reset :: more) → step t.core = .next u →
    timedRun (1 + latency c.word t.core) t =
      .next { core := u, running := none, clock := t.clock + 1 + latency c.word t.core } ∧ u.busy = false ∧
    ∀ k, 1 ≤ k → k ≤ latency c.word t.core →
      ∃ v, timedRun k t = .next v ∧ v.core.pending = rest ∧ v.core.response = t.core.response ∧
        (timedStatus v).extractLsb' 12 20 = 1

/-- R382, R383: a latency is at least 1, and depends on OP, NBYTES, legality, PHASE and BUFCNT alone. -/
def Obligations.LatencyDependsOnPermittedInputs : Prop :=
  ∀ (v w : BitVec 32) (s t : State),
    1 ≤ latency w s ∧
    (opField v = opField w → nbytesField v = nbytesField w → legal v = legal w → s.phase = t.phase →
      s.bufcnt = t.bufcnt → latency v s = latency w t)

/-- R53, R83, R332: a step of one instance leaves every other as it was, and steps of two instances give the same platform
in either order. -/
def Obligations.InstancesAreIndependent : Prop :=
  ∀ (n : Nat) (p q r : Platform n) (i j : Fin n), i ≠ j →
    stepInstance p i = .next q → stepInstance p j = .next r →
      q.instances[j] = p.instances[j] ∧ r.instances[i] = p.instances[i] ∧
      ∃ o, stepInstance q j = .next o ∧ stepInstance r i = .next o
end

