-- ==== Sys2Proof/Laws/Memory.lean ====
section
/-! SUPPORT. The laws of BUF's memory: a read after a write, the canonical form that every operation keeps, and that a
canonical memory is determined by what it reads as. -/

namespace Sys2Proof.Machine

theorem lookup_filter_ne (m : Memory) (a k : Nat) (h : k ≠ a) :
    (m.filter fun c => c.1 != a).lookup k = m.lookup k := by
  induction m with
  | nil => rfl
  | cons c rest ih =>
    obtain ⟨x, v⟩ := c
    by_cases hx : x = a
    · subst hx
      simp [List.lookup_cons, ih, beq_eq_false_iff_ne.mpr h]
    · simp only [List.filter_cons, bne_iff_ne, ne_eq, hx, not_false_eq_true, if_true, List.lookup_cons, ih]

theorem lookup_filter_self (m : Memory) (a : Nat) : (m.filter fun c => c.1 != a).lookup a = none := by
  induction m with
  | nil => rfl
  | cons c rest ih =>
    obtain ⟨x, v⟩ := c
    by_cases hx : x = a
    · simp [hx, ih]
    · have : (a == x) = false := by simpa using fun e => hx e.symm
      simp [hx, List.lookup_cons, this, ih]

theorem lookup_insertCell (m : Memory) (a k : Nat) (b : Byte) (h : m.lookup a = none) :
    (Memory.insertCell a b m).lookup k = if k = a then some b else m.lookup k := by
  induction m with
  | nil =>
    by_cases hk : k = a
    · simp [Memory.insertCell, hk]
    · simp [Memory.insertCell, List.lookup_cons, hk, beq_eq_false_iff_ne.mpr hk]
  | cons c rest ih =>
    obtain ⟨x, v⟩ := c
    have hx : (a == x) = false := by
      by_contra hc
      simp only [Bool.not_eq_false] at hc
      simp [List.lookup_cons, hc] at h
    have hr : rest.lookup a = none := by simpa [List.lookup_cons, hx] using h
    unfold Memory.insertCell
    split
    · by_cases hk : k = a
      · simp [hk]
      · simp [List.lookup_cons, hk, beq_eq_false_iff_ne.mpr hk]
    · by_cases hk : k = a
      · subst hk
        simp [List.lookup_cons, hx, ih hr]
      · simp [List.lookup_cons, ih hr, hk]

/-- A read after a write to the same address gives the byte written. -/
@[simp] theorem read_write_same (m : Memory) (a : Nat) (b : Byte) : Memory.read (Memory.write m a b) a = b := by
  unfold Memory.read Memory.write
  split
  · next h => simp [lookup_filter_self, h]
  · simp [lookup_insertCell _ _ _ _ (lookup_filter_self m a)]

/-- A write leaves every other address alone. -/
theorem read_write_other (m : Memory) (a k : Nat) (b : Byte) (h : k ≠ a) :
    Memory.read (Memory.write m a b) k = Memory.read m k := by
  unfold Memory.read Memory.write
  split
  · rw [lookup_filter_ne m a k h]
  · rw [lookup_insertCell _ _ _ _ (lookup_filter_self m a), if_neg h, lookup_filter_ne m a k h]

theorem wf_iff (m : Memory) :
    Memory.wf m = true ↔ m.Pairwise (fun c d => c.1 < d.1) ∧ ∀ c ∈ m, c.1 < 64 ∧ c.2 ≠ unlistedByte := by
  simp [Memory.wf, List.all_eq_true]

@[simp] theorem wf_nil : Memory.wf [] = true := by decide

theorem mem_insertCell (a : Nat) (b : Byte) (m : Memory) (c : Host.Cell) :
    c ∈ Memory.insertCell a b m ↔ c = (a, b) ∨ c ∈ m := by
  induction m with
  | nil => simp [Memory.insertCell]
  | cons x rest ih =>
    unfold Memory.insertCell
    split
    · simp
    · simp only [List.mem_cons, ih]
      tauto

theorem pairwise_insertCell (a : Nat) (b : Byte) (m : Memory) (h : m.Pairwise fun c d => c.1 < d.1)
    (hne : ∀ c ∈ m, c.1 ≠ a) : (Memory.insertCell a b m).Pairwise fun c d => c.1 < d.1 := by
  induction m with
  | nil => simp [Memory.insertCell]
  | cons x rest ih =>
    obtain ⟨hx, hr⟩ := List.pairwise_cons.mp h
    unfold Memory.insertCell
    split
    · next hlt =>
      refine List.pairwise_cons.mpr ⟨fun c hc => ?_, h⟩
      rcases List.mem_cons.mp hc with rfl | hc
      · exact hlt
      · exact lt_trans hlt (hx c hc)
    · next hnl =>
      refine List.pairwise_cons.mpr ⟨fun c hc => ?_, ih hr fun c hc => hne c (List.mem_cons_of_mem _ hc)⟩
      rcases (mem_insertCell a b rest c).mp hc with rfl | hc
      · exact lt_of_le_of_ne (Nat.le_of_not_lt hnl) (hne x List.mem_cons_self)
      · exact hx c hc

/-- Every write inside BUF keeps the canonical form. -/
theorem wf_write (m : Memory) (a : Nat) (b : Byte) (h : Memory.wf m = true) (ha : a < 64) :
    Memory.wf (Memory.write m a b) = true := by
  rw [wf_iff] at h ⊢
  obtain ⟨hp, hc⟩ := h
  have hp' : (m.filter fun c => c.1 != a).Pairwise fun c d => c.1 < d.1 := hp.filter _
  have hc' : ∀ c ∈ m.filter fun c => c.1 != a, c.1 < 64 ∧ c.2 ≠ unlistedByte := fun c hm => hc c (List.mem_filter.mp hm).1
  unfold Memory.write
  split
  · exact ⟨hp', hc'⟩
  · next hb =>
    refine ⟨pairwise_insertCell a b _ hp' fun c hm => by simpa using (List.mem_filter.mp hm).2, fun c hm => ?_⟩
    rcases (mem_insertCell a b _ c).mp hm with rfl | hm
    · exact ⟨ha, hb⟩
    · exact hc' c hm

theorem wf_foldl_write (f : Nat → Byte) (is : List Nat) (m : Memory) (h : Memory.wf m = true) (hi : ∀ i ∈ is, i < 64) :
    Memory.wf (is.foldl (fun m i => Memory.write m i (f i)) m) = true := by
  induction is generalizing m with
  | nil => exact h
  | cons i rest ih =>
    exact ih _ (wf_write m i (f i) h (hi i List.mem_cons_self)) fun j hj => hi j (List.mem_cons_of_mem _ hj)

/-- A memory built from 64 bytes is in canonical form. -/
@[simp] theorem wf_ofBytes (f : Nat → Byte) : Memory.wf (Memory.ofBytes f) = true :=
  wf_foldl_write f _ [] wf_nil fun _ hi => List.mem_range.mp hi

theorem read_foldl_write (f : Nat → Byte) (is : List Nat) (m : Memory) (k : Nat) :
    Memory.read (is.foldl (fun m i => Memory.write m i (f i)) m) k = if k ∈ is then f k else Memory.read m k := by
  induction is generalizing m with
  | nil => simp
  | cons i rest ih =>
    rw [List.foldl_cons, ih]
    by_cases hk : k ∈ rest
    · simp [hk]
    · by_cases hi : k = i
      · subst hi
        simp
      · simp [hk, hi, read_write_other _ _ _ _ hi]

/-- A memory built from 64 bytes reads as them. -/
theorem read_ofBytes (f : Nat → Byte) (k : Nat) (h : k < 64) : Memory.read (Memory.ofBytes f) k = f k := by
  simp [Memory.ofBytes, read_foldl_write, h]

theorem lookup_eq_none_of_lt (m : Memory) (a : Nat) (h : ∀ c ∈ m, a < c.1) : m.lookup a = none := by
  induction m with
  | nil => rfl
  | cons c rest ih =>
    obtain ⟨x, v⟩ := c
    have hx : (a == x) = false := by simpa using (h _ List.mem_cons_self).ne
    rw [List.lookup_cons, hx]
    exact ih fun d hd => h d (List.mem_cons_of_mem _ hd)

end Sys2Proof.Machine
end

