-- ==== Sys2Proof/Laws/State.lean ====
section
/-! SUPPORT. What each named operation makes of each field of State, one lemma per field per operation, so that no later
proof unfolds a record update. -/

namespace Sys2Proof.Machine

@[simp] theorem memWrite_h (s : State) (i : BitVec 6) (v : Byte) : (memWrite s i v).h = s.h := rfl
@[simp] theorem memWrite_buf (s : State) (i : BitVec 6) (v : Byte) : (memWrite s i v).buf = Memory.write s.buf i.toNat v := rfl
@[simp] theorem memWrite_bufcnt (s : State) (i : BitVec 6) (v : Byte) : (memWrite s i v).bufcnt = s.bufcnt := rfl
@[simp] theorem memWrite_len (s : State) (i : BitVec 6) (v : Byte) : (memWrite s i v).len = s.len := rfl
@[simp] theorem memWrite_phase (s : State) (i : BitVec 6) (v : Byte) : (memWrite s i v).phase = s.phase := rfl
@[simp] theorem memWrite_digest (s : State) (i : BitVec 6) (v : Byte) : (memWrite s i v).digest = s.digest := rfl
@[simp] theorem memWrite_err (s : State) (i : BitVec 6) (v : Byte) : (memWrite s i v).err = s.err := rfl
@[simp] theorem memWrite_lastResp (s : State) (i : BitVec 6) (v : Byte) : (memWrite s i v).lastResp = s.lastResp := rfl
@[simp] theorem memWrite_busy (s : State) (i : BitVec 6) (v : Byte) : (memWrite s i v).busy = s.busy := rfl
@[simp] theorem memWrite_pending (s : State) (i : BitVec 6) (v : Byte) : (memWrite s i v).pending = s.pending := rfl
@[simp] theorem memWrite_dataBus (s : State) (i : BitVec 6) (v : Byte) : (memWrite s i v).dataBus = s.dataBus := rfl
@[simp] theorem memWrite_response (s : State) (i : BitVec 6) (v : Byte) : (memWrite s i v).response = s.response := rfl
@[simp] theorem memWrite_freeCount (s : State) (i : BitVec 6) (v : Byte) : (memWrite s i v).freeCount = s.freeCount := rfl

@[simp] theorem compressBuffer_h (s : State) : (compressBuffer s).h = compress s.h (bufBlock s) := rfl
@[simp] theorem compressBuffer_buf (s : State) : (compressBuffer s).buf = s.buf := rfl
@[simp] theorem compressBuffer_bufcnt (s : State) : (compressBuffer s).bufcnt = 0 := rfl
@[simp] theorem compressBuffer_len (s : State) : (compressBuffer s).len = s.len := rfl
@[simp] theorem compressBuffer_phase (s : State) : (compressBuffer s).phase = s.phase := rfl
@[simp] theorem compressBuffer_digest (s : State) : (compressBuffer s).digest = s.digest := rfl
@[simp] theorem compressBuffer_err (s : State) : (compressBuffer s).err = s.err := rfl
@[simp] theorem compressBuffer_lastResp (s : State) : (compressBuffer s).lastResp = s.lastResp := rfl
@[simp] theorem compressBuffer_busy (s : State) : (compressBuffer s).busy = s.busy := rfl
@[simp] theorem compressBuffer_pending (s : State) : (compressBuffer s).pending = s.pending := rfl
@[simp] theorem compressBuffer_dataBus (s : State) : (compressBuffer s).dataBus = s.dataBus := rfl
@[simp] theorem compressBuffer_response (s : State) : (compressBuffer s).response = s.response := rfl
@[simp] theorem compressBuffer_freeCount (s : State) : (compressBuffer s).freeCount = s.freeCount := rfl

@[simp] theorem accept_h (c : Command) (rest : List HostAction) (s : State) : (accept c rest s).h = s.h := rfl
@[simp] theorem accept_buf (c : Command) (rest : List HostAction) (s : State) : (accept c rest s).buf = s.buf := rfl
@[simp] theorem accept_bufcnt (c : Command) (rest : List HostAction) (s : State) : (accept c rest s).bufcnt = s.bufcnt := rfl
@[simp] theorem accept_len (c : Command) (rest : List HostAction) (s : State) : (accept c rest s).len = s.len := rfl
@[simp] theorem accept_phase (c : Command) (rest : List HostAction) (s : State) : (accept c rest s).phase = s.phase := rfl
@[simp] theorem accept_digest (c : Command) (rest : List HostAction) (s : State) : (accept c rest s).digest = s.digest := rfl
@[simp] theorem accept_err (c : Command) (rest : List HostAction) (s : State) : (accept c rest s).err = s.err := rfl
@[simp] theorem accept_lastResp (c : Command) (rest : List HostAction) (s : State) : (accept c rest s).lastResp = s.lastResp := rfl
@[simp] theorem accept_busy (c : Command) (rest : List HostAction) (s : State) : (accept c rest s).busy = true := rfl
@[simp] theorem accept_pending (c : Command) (rest : List HostAction) (s : State) : (accept c rest s).pending = rest := rfl
@[simp] theorem accept_dataBus (c : Command) (rest : List HostAction) (s : State) : (accept c rest s).dataBus = c.data := rfl
@[simp] theorem accept_response (c : Command) (rest : List HostAction) (s : State) : (accept c rest s).response = s.response := rfl
@[simp] theorem accept_freeCount (c : Command) (rest : List HostAction) (s : State) : (accept c rest s).freeCount = s.freeCount := rfl

@[simp] theorem respond_h (code : RespCode) (d : Option Digest) (s : State) : (respond code d s).h = s.h := rfl
@[simp] theorem respond_buf (code : RespCode) (d : Option Digest) (s : State) : (respond code d s).buf = s.buf := rfl
@[simp] theorem respond_bufcnt (code : RespCode) (d : Option Digest) (s : State) : (respond code d s).bufcnt = s.bufcnt := rfl
@[simp] theorem respond_len (code : RespCode) (d : Option Digest) (s : State) : (respond code d s).len = s.len := rfl
@[simp] theorem respond_phase (code : RespCode) (d : Option Digest) (s : State) : (respond code d s).phase = s.phase := rfl
@[simp] theorem respond_digest (code : RespCode) (d : Option Digest) (s : State) : (respond code d s).digest = s.digest := rfl
@[simp] theorem respond_err (code : RespCode) (d : Option Digest) (s : State) : (respond code d s).err = s.err := rfl
@[simp] theorem respond_lastResp (code : RespCode) (d : Option Digest) (s : State) : (respond code d s).lastResp = s.lastResp := rfl
@[simp] theorem respond_busy (code : RespCode) (d : Option Digest) (s : State) : (respond code d s).busy = false := rfl
@[simp] theorem respond_pending (code : RespCode) (d : Option Digest) (s : State) : (respond code d s).pending = s.pending := rfl
@[simp] theorem respond_dataBus (code : RespCode) (d : Option Digest) (s : State) : (respond code d s).dataBus = undrivenBus := rfl
@[simp] theorem respond_response (code : RespCode) (d : Option Digest) (s : State) : (respond code d s).response = some ⟨code, d⟩ := rfl
@[simp] theorem respond_freeCount (code : RespCode) (d : Option Digest) (s : State) : (respond code d s).freeCount = s.freeCount := rfl

@[simp] theorem raiseError_h (e : ErrorKind) (s : State) : (raiseError e s).h = s.h := rfl
@[simp] theorem raiseError_buf (e : ErrorKind) (s : State) : (raiseError e s).buf = s.buf := rfl
@[simp] theorem raiseError_bufcnt (e : ErrorKind) (s : State) : (raiseError e s).bufcnt = s.bufcnt := rfl
@[simp] theorem raiseError_len (e : ErrorKind) (s : State) : (raiseError e s).len = s.len := rfl
@[simp] theorem raiseError_phase (e : ErrorKind) (s : State) : (raiseError e s).phase = s.phase := rfl
@[simp] theorem raiseError_digest (e : ErrorKind) (s : State) : (raiseError e s).digest = s.digest := rfl
@[simp] theorem raiseError_err (e : ErrorKind) (s : State) : (raiseError e s).err = true := rfl
@[simp] theorem raiseError_lastResp (e : ErrorKind) (s : State) : (raiseError e s).lastResp = errorCode e := rfl
@[simp] theorem raiseError_busy (e : ErrorKind) (s : State) : (raiseError e s).busy = false := rfl
@[simp] theorem raiseError_pending (e : ErrorKind) (s : State) : (raiseError e s).pending = s.pending := rfl
@[simp] theorem raiseError_dataBus (e : ErrorKind) (s : State) : (raiseError e s).dataBus = undrivenBus := rfl
@[simp] theorem raiseError_response (e : ErrorKind) (s : State) : (raiseError e s).response = some ⟨errorCode e, none⟩ := rfl
@[simp] theorem raiseError_freeCount (e : ErrorKind) (s : State) : (raiseError e s).freeCount = s.freeCount := rfl

@[simp] theorem newSession_h (s : State) : (newSession s).h = initialHash := rfl
@[simp] theorem newSession_buf (s : State) : (newSession s).buf = s.buf := rfl
@[simp] theorem newSession_bufcnt (s : State) : (newSession s).bufcnt = 0 := rfl
@[simp] theorem newSession_len (s : State) : (newSession s).len = 0 := rfl
@[simp] theorem newSession_phase (s : State) : (newSession s).phase = .fresh := rfl
@[simp] theorem newSession_digest (s : State) : (newSession s).digest = none := rfl
@[simp] theorem newSession_err (s : State) : (newSession s).err = false := rfl
@[simp] theorem newSession_lastResp (s : State) : (newSession s).lastResp = .ok := rfl
@[simp] theorem newSession_busy (s : State) : (newSession s).busy = s.busy := rfl
@[simp] theorem newSession_pending (s : State) : (newSession s).pending = s.pending := rfl
@[simp] theorem newSession_dataBus (s : State) : (newSession s).dataBus = s.dataBus := rfl
@[simp] theorem newSession_response (s : State) : (newSession s).response = s.response := rfl
@[simp] theorem newSession_freeCount (s : State) : (newSession s).freeCount = s.freeCount := rfl

@[simp] theorem freeBuf_h (s : State) : (freeBuf s).h = s.h := rfl
@[simp] theorem freeBuf_buf (s : State) : (freeBuf s).buf = Memory.ofBytes (Config.freeByte s.freeCount) := rfl
@[simp] theorem freeBuf_bufcnt (s : State) : (freeBuf s).bufcnt = s.bufcnt := rfl
@[simp] theorem freeBuf_len (s : State) : (freeBuf s).len = s.len := rfl
@[simp] theorem freeBuf_phase (s : State) : (freeBuf s).phase = s.phase := rfl
@[simp] theorem freeBuf_digest (s : State) : (freeBuf s).digest = s.digest := rfl
@[simp] theorem freeBuf_err (s : State) : (freeBuf s).err = s.err := rfl
@[simp] theorem freeBuf_lastResp (s : State) : (freeBuf s).lastResp = s.lastResp := rfl
@[simp] theorem freeBuf_busy (s : State) : (freeBuf s).busy = s.busy := rfl
@[simp] theorem freeBuf_pending (s : State) : (freeBuf s).pending = s.pending := rfl
@[simp] theorem freeBuf_dataBus (s : State) : (freeBuf s).dataBus = s.dataBus := rfl
@[simp] theorem freeBuf_response (s : State) : (freeBuf s).response = s.response := rfl
@[simp] theorem freeBuf_freeCount (s : State) : (freeBuf s).freeCount = s.freeCount + 1 := rfl

@[simp] theorem applyReset_h (s : State) : (applyReset s).h = initialHash := rfl
@[simp] theorem applyReset_buf (s : State) : (applyReset s).buf = Memory.ofBytes (Config.freeByte s.freeCount) := rfl
@[simp] theorem applyReset_bufcnt (s : State) : (applyReset s).bufcnt = 0 := rfl
@[simp] theorem applyReset_len (s : State) : (applyReset s).len = 0 := rfl
@[simp] theorem applyReset_phase (s : State) : (applyReset s).phase = .fresh := rfl
@[simp] theorem applyReset_digest (s : State) : (applyReset s).digest = none := rfl
@[simp] theorem applyReset_err (s : State) : (applyReset s).err = false := rfl
@[simp] theorem applyReset_lastResp (s : State) : (applyReset s).lastResp = .ok := rfl
@[simp] theorem applyReset_busy (s : State) : (applyReset s).busy = false := rfl
@[simp] theorem applyReset_pending (s : State) : (applyReset s).pending = s.pending := rfl
@[simp] theorem applyReset_dataBus (s : State) : (applyReset s).dataBus = undrivenBus := rfl
@[simp] theorem applyReset_response (s : State) : (applyReset s).response = none := rfl
@[simp] theorem applyReset_freeCount (s : State) : (applyReset s).freeCount = s.freeCount + 1 := rfl

end Sys2Proof.Machine
end

