-- ==== Sys2Proof/Laws/Absorb.lean ====
section
/-! SUPPORT. What absorbing bytes does, said once: the two cases of one byte, what a beat leaves alone, where BUFCNT ends,
and that beats compose. -/

namespace Sys2Proof.Machine

/-- A byte that does not complete the block is stored at BUFCNT, which counts up. -/
theorem absorbByte_buffer (s : State) (b : Byte) (h : s.bufcnt.toNat + 1 ≠ 64) :
    absorbByte s b = { s with buf := Memory.write s.buf s.bufcnt.toNat b, bufcnt := s.bufcnt + 1 } := by
  simp [absorbByte, h, memWrite]

/-- The byte that completes the block is stored at 63, the block is compressed, and BUFCNT becomes 0. -/
theorem absorbByte_compress (s : State) (b : Byte) (h : s.bufcnt.toNat + 1 = 64) :
    absorbByte s b = { s with
      buf := Memory.write s.buf 63 b
      h := compress s.h (bufBlock { s with buf := Memory.write s.buf 63 b })
      bufcnt := 0 } := by
  have h63 : s.bufcnt.toNat = 63 := by omega
  simp [absorbByte, h63, memWrite, compressBuffer]

@[simp] theorem absorbBytes_nil (s : State) : absorbBytes s [] = s := rfl

@[simp] theorem absorbBytes_cons (s : State) (b : Byte) (bs : List Byte) :
    absorbBytes s (b :: bs) = absorbBytes (absorbByte s b) bs := rfl

/-- Absorbing two byte sequences one after the other is absorbing their concatenation. -/
theorem absorbBytes_append (s : State) (bs cs : List Byte) :
    absorbBytes s (bs ++ cs) = absorbBytes (absorbBytes s bs) cs := List.foldl_append

/-- Absorbing bytes writes H, BUF and BUFCNT only. -/
theorem absorbBytes_frame (s : State) (bs : List Byte) :
    absorbBytes s bs =
      { s with h := (absorbBytes s bs).h, buf := (absorbBytes s bs).buf, bufcnt := (absorbBytes s bs).bufcnt } := by
  induction bs generalizing s with
  | nil => rfl
  | cons b bs ih =>
    rw [absorbBytes_cons, ih]
    by_cases h : s.bufcnt.toNat + 1 = 64
    · simp [absorbByte_compress s b h]
    · simp [absorbByte_buffer s b h]

@[simp] theorem absorbBytes_len (s : State) (bs : List Byte) : (absorbBytes s bs).len = s.len := by rw [absorbBytes_frame]
@[simp] theorem absorbBytes_phase (s : State) (bs : List Byte) : (absorbBytes s bs).phase = s.phase := by
  rw [absorbBytes_frame]
@[simp] theorem absorbBytes_digest (s : State) (bs : List Byte) : (absorbBytes s bs).digest = s.digest := by
  rw [absorbBytes_frame]
@[simp] theorem absorbBytes_err (s : State) (bs : List Byte) : (absorbBytes s bs).err = s.err := by rw [absorbBytes_frame]
@[simp] theorem absorbBytes_lastResp (s : State) (bs : List Byte) : (absorbBytes s bs).lastResp = s.lastResp := by
  rw [absorbBytes_frame]
@[simp] theorem absorbBytes_busy (s : State) (bs : List Byte) : (absorbBytes s bs).busy = s.busy := by rw [absorbBytes_frame]
@[simp] theorem absorbBytes_pending (s : State) (bs : List Byte) : (absorbBytes s bs).pending = s.pending := by
  rw [absorbBytes_frame]
@[simp] theorem absorbBytes_dataBus (s : State) (bs : List Byte) : (absorbBytes s bs).dataBus = s.dataBus := by
  rw [absorbBytes_frame]
@[simp] theorem absorbBytes_response (s : State) (bs : List Byte) : (absorbBytes s bs).response = s.response := by
  rw [absorbBytes_frame]
@[simp] theorem absorbBytes_freeCount (s : State) (bs : List Byte) : (absorbBytes s bs).freeCount = s.freeCount := by
  rw [absorbBytes_frame]

theorem absorbByte_bufcnt (s : State) (b : Byte) : (absorbByte s b).bufcnt.toNat = (s.bufcnt.toNat + 1) % 64 := by
  by_cases h : s.bufcnt.toNat + 1 = 64
  · simp [absorbByte_compress s b h, h]
  · simp [absorbByte_buffer s b h, BitVec.toNat_add]

/-- BUFCNT after a beat counts modulo 64. -/
theorem absorbBytes_bufcnt (s : State) (bs : List Byte) :
    (absorbBytes s bs).bufcnt.toNat = (s.bufcnt.toNat + bs.length) % 64 := by
  induction bs generalizing s with
  | nil =>
    have := s.bufcnt.isLt
    simp only [absorbBytes_nil, List.length_nil, Nat.add_zero]
    omega
  | cons b bs ih =>
    rw [absorbBytes_cons, ih, absorbByte_bufcnt]
    simp only [List.length_cons]
    omega

theorem absorbByte_wf (s : State) (b : Byte) (h : Memory.wf s.buf = true) : Memory.wf (absorbByte s b).buf = true := by
  by_cases hc : s.bufcnt.toNat + 1 = 64
  · simpa [absorbByte_compress s b hc] using wf_write _ _ _ h (by omega)
  · simpa [absorbByte_buffer s b hc] using wf_write _ _ _ h s.bufcnt.isLt

/-- Absorbing bytes keeps BUF in canonical form. -/
theorem absorbBytes_wf (s : State) (bs : List Byte) (h : Memory.wf s.buf = true) :
    Memory.wf (absorbBytes s bs).buf = true := by
  induction bs generalizing s with
  | nil => exact h
  | cons b bs ih => exact ih _ (absorbByte_wf s b h)

/-- A beat that does not complete the block is stored from BUFCNT on and counted, and H stays. -/
theorem absorbBytes_buffer (s : State) (bs : List Byte) (h : s.bufcnt.toNat + bs.length < 64) :
    (absorbBytes s bs).h = s.h ∧ (absorbBytes s bs).bufcnt.toNat = s.bufcnt.toNat + bs.length ∧
    ∀ a, Memory.read (absorbBytes s bs).buf a =
      if s.bufcnt.toNat ≤ a ∧ a < s.bufcnt.toNat + bs.length then bs.getD (a - s.bufcnt.toNat) 0
      else Memory.read s.buf a := by
  induction bs generalizing s with
  | nil =>
    refine ⟨rfl, rfl, fun a => ?_⟩
    simp only [List.length_nil, Nat.add_zero]
    rw [if_neg (by omega)]
    rfl
  | cons b bs ih =>
    simp only [List.length_cons] at h
    have hc : s.bufcnt.toNat + 1 ≠ 64 := by omega
    have hn : (absorbByte s b).bufcnt.toNat = s.bufcnt.toNat + 1 := by rw [absorbByte_bufcnt]; omega
    obtain ⟨i₁, i₂, i₃⟩ := ih (absorbByte s b) (by omega)
    rw [absorbBytes_cons]
    refine ⟨by rw [i₁, absorbByte_buffer s b hc], by rw [i₂, hn, List.length_cons]; omega, fun a => ?_⟩
    rw [i₃ a, hn, List.length_cons]
    rcases Nat.lt_trichotomy a s.bufcnt.toNat with ha | ha | ha
    · rw [if_neg (by omega), if_neg (by omega), absorbByte_buffer s b hc]
      exact read_write_other _ _ _ _ (by omega)
    · rw [if_neg (by omega), if_pos (by omega), absorbByte_buffer s b hc, ha]
      simp
    · by_cases hl : a < s.bufcnt.toNat + 1 + bs.length
      · rw [if_pos (by omega), if_pos (by omega), show a - s.bufcnt.toNat = a - (s.bufcnt.toNat + 1) + 1 by omega]
        rfl
      · rw [if_neg (by omega), if_neg (by omega), absorbByte_buffer s b hc]
        exact read_write_other _ _ _ _ (by omega)

end Sys2Proof.Machine
end

