-- ==== Sys2Proof/Laws/Constants.lean ====
section
/-! SUPPORT. The table K read at an index, and its corners as 40_functions.md R150 gives them. -/

namespace Sys2Proof.Machine

/-- An entry of the table K is its round constant. -/
@[simp] theorem roundConstants_getElem (t : Nat) (h : t < 64) : roundConstants[t] = roundConstant t := by
  simp [roundConstants]

/-- The entries R150 writes out: K[0], K[15] and K[63]. -/
theorem roundConstant_corners :
    roundConstant 0 = 0x428A2F98 ∧ roundConstant 15 = 0xC19BF174 ∧ roundConstant 63 = 0xC67178F2 := by decide

end Sys2Proof.Machine
end

