-- ==== Sys2Proof/Laws/Decode.lean ====
section
/-! SUPPORT. What the decoder accepts, said once: each command with the fields of its word. -/

namespace Sys2Proof

/-- The word of INIT has OP 1, NBYTES 0, RSVD 0. -/
theorem decode_ok_init (w : BitVec 32) :
    decode w = .ok .init ↔ rsvdField w = 0 ∧ opField w = 0x1 ∧ nbytesField w = 0 := by
  unfold decode
  constructor
  · intro h
    repeat' split at h
    all_goals first | contradiction | simp_all
  · rintro ⟨h₁, h₂, h₃⟩
    simp [h₁, h₂, h₃]

/-- The word of UPDATE n has OP 2, NBYTES n at most 64, RSVD 0. -/
theorem decode_ok_update (w : BitVec 32) (n : BitVec 7) :
    decode w = .ok (.update n) ↔ rsvdField w = 0 ∧ opField w = 0x2 ∧ nbytesField w = n ∧ n.toNat ≤ 64 := by
  unfold decode
  constructor
  · intro h
    repeat' split at h
    all_goals first | contradiction | simp_all
  · rintro ⟨h₁, h₂, rfl, h₄⟩
    simp [h₁, h₂, h₄]

/-- The word of FINAL has OP 3, NBYTES 0, RSVD 0. -/
theorem decode_ok_final (w : BitVec 32) :
    decode w = .ok .final ↔ rsvdField w = 0 ∧ opField w = 0x3 ∧ nbytesField w = 0 := by
  unfold decode
  constructor
  · intro h
    repeat' split at h
    all_goals first | contradiction | simp_all
  · rintro ⟨h₁, h₂, h₃⟩
    simp [h₁, h₂, h₃]

/-- What the decoder accepts is well formed. -/
theorem decode_wellFormed (w : BitVec 32) (i : Instr) (h : decode w = .ok i) : i.wellFormed = true := by
  cases i with
  | init => rfl
  | update n => simpa [Instr.wellFormed] using ((decode_ok_update w n).mp h).2.2.2
  | final => rfl

end Sys2Proof
end

