-- ==== Sys2Proof/Laws/Exec.lean ====
section
/-! SUPPORT. What each command's meaning answers, one lemma per case, and that every meaning answers a next state. -/

namespace Sys2Proof.Machine

/-- INIT answers the new session with response OK. -/
theorem exec_init (s : State) : exec .init s = .next (respond .ok none (newSession s)) := rfl

/-- UPDATE with a count above 64 raises EILLEGAL. -/
theorem exec_update_overlong (n : BitVec 7) (s : State) (h : 64 < n.toNat) :
    exec (.update n) s = .next (raiseError .eillegal s) := by
  simp [exec, execUpdate, countLegal, byteCount, Nat.not_le.mpr h]

/-- A legal UPDATE in FINALIZED raises EVIOLATION. -/
theorem exec_update_finalized (n : BitVec 7) (s : State) (h : n.toNat ≤ 64) (hp : s.phase = .finalized) :
    exec (.update n) s = .next (raiseError .eviolation s) := by
  simp [exec, execUpdate, countLegal, byteCount, h, hp]

/-- A legal UPDATE outside FINALIZED absorbs its beat. -/
theorem exec_update_absorbs (n : BitVec 7) (s : State) (h : n.toNat ≤ 64) (hp : s.phase ≠ .finalized) :
    exec (.update n) s = .next (respond .ok none { absorbBytes s (beatBytes n s) with
      len := s.len + n.setWidth 64, phase := .accum, lastResp := .ok }) := by
  simp [exec, execUpdate, countLegal, byteCount, h, hp]

/-- FINAL in FINALIZED raises EVIOLATION. -/
theorem exec_final_finalized (s : State) (hp : s.phase = .finalized) :
    exec .final s = .next (raiseError .eviolation s) := by
  simp [exec, execFinal, hp]

/-- FINAL outside FINALIZED compresses the padding blocks and returns the serialized state. -/
theorem exec_final_returns (s : State) (hp : s.phase ≠ .finalized) :
    exec .final s = .next (respond .ok (some (serialize (compressBlocks s.h (padBlocks (bufferedBytes s) s.len))))
      { s with
        h := compressBlocks s.h (padBlocks (bufferedBytes s) s.len)
        digest := some (serialize (compressBlocks s.h (padBlocks (bufferedBytes s) s.len)))
        bufcnt := 0, phase := .finalized, lastResp := .ok }) := by
  simp [exec, execFinal, hp]

/-- Everything a command can do: the new session, one of the two errors, an absorbed beat, or a digest returned. -/
theorem exec_cases (i : Instr) (s : State) :
    (i = .init ∧ exec i s = .next (respond .ok none (newSession s))) ∨
    ((∃ n, i = .update n ∧ 64 < n.toNat) ∧ exec i s = .next (raiseError .eillegal s)) ∨
    (i ≠ .init ∧ i.wellFormed = true ∧ s.phase = .finalized ∧ exec i s = .next (raiseError .eviolation s)) ∨
    (∃ n, i = .update n ∧ n.toNat ≤ 64 ∧ s.phase ≠ .finalized ∧
      exec i s = .next (respond .ok none { absorbBytes s (beatBytes n s) with
        len := s.len + n.setWidth 64, phase := .accum, lastResp := .ok })) ∨
    (i = .final ∧ s.phase ≠ .finalized ∧
      exec i s = .next (respond .ok (some (serialize (compressBlocks s.h (padBlocks (bufferedBytes s) s.len))))
        { s with
          h := compressBlocks s.h (padBlocks (bufferedBytes s) s.len)
          digest := some (serialize (compressBlocks s.h (padBlocks (bufferedBytes s) s.len)))
          bufcnt := 0, phase := .finalized, lastResp := .ok })) := by
  cases i with
  | init => exact .inl ⟨rfl, exec_init s⟩
  | update n =>
    by_cases h : n.toNat ≤ 64
    · by_cases hp : s.phase = .finalized
      · exact .inr (.inr (.inl ⟨by simp, by simp [Instr.wellFormed, h], hp, exec_update_finalized n s h hp⟩))
      · exact .inr (.inr (.inr (.inl ⟨n, rfl, h, hp, exec_update_absorbs n s h hp⟩)))
    · exact .inr (.inl ⟨⟨n, rfl, by omega⟩, exec_update_overlong n s (by omega)⟩)
  | final =>
    by_cases hp : s.phase = .finalized
    · exact .inr (.inr (.inl ⟨by simp, rfl, hp, exec_final_finalized s hp⟩))
    · exact .inr (.inr (.inr (.inr ⟨rfl, hp, exec_final_returns s hp⟩)))

end Sys2Proof.Machine
end

