-- ==== Sys2Proof/Laws/PerInstr.lean ====
section
/-! SUPPORT. Statements made per command, about the command as syntax: the fields of its encoded word (30_encoding.md R101,
R107). -/

namespace Sys2Proof.Laws.EncodedFields

/-- The word of a well-formed command has the command's OP, its byte count (0 where it has none), and RSVD 0. -/
def Statement (i : Instr) : Prop :=
  i.wellFormed = true → rsvdField (encode i) = 0 ∧
    match i with
    | .init => opField (encode i) = 0x1 ∧ nbytesField (encode i) = 0
    | .update n => opField (encode i) = 0x2 ∧ nbytesField (encode i) = n
    | .final => opField (encode i) = 0x3 ∧ nbytesField (encode i) = 0

theorem init : Statement .init := fun _ => by decide

theorem update (n : BitVec 7) : Statement (.update n) := fun _ => by
  revert n
  decide

theorem final : Statement .final := fun _ => by decide

end Sys2Proof.Laws.EncodedFields
end

