-- ==== Sys2Proof/Laws/Step.lean ====
section
/-! SUPPORT. What one step does, by the next host action: one lemma per case, and the inversion that says there are no
others. -/

namespace Sys2Proof.Machine

/-- With nothing presented and no command executing, the state is held. -/
theorem step_idle (s : State) (hb : s.busy = false) (hp : s.pending = []) : step s = .next s := by
  simp [step, fetch, hb, hp, execute, idle]

/-- While a command executes, a presented command, or none, leaves the state as it is. -/
theorem step_held (s : State) (hb : s.busy = true) (hp : ∀ rest, s.pending ≠ .reset :: rest) : step s = .next s := by
  unfold step fetch
  rw [hb]
  match h : s.pending with
  | [] => rfl
  | .command _ :: _ => rfl
  | .reset :: rest => exact absurd h (hp rest)

/-- A reset asserted while a command executes is refused. -/
theorem step_reset_busy (s : State) (rest : List HostAction) (hb : s.busy = true) (hp : s.pending = .reset :: rest) :
    step s = .refused .resetWhileBusy := by
  simp [step, fetch, hb, hp, execute]

/-- A reset. -/
theorem step_reset (s : State) (rest : List HostAction) (hb : s.busy = false) (hp : s.pending = .reset :: rest) :
    step s = .next (applyReset { s with pending := rest }) := by
  simp [step, fetch, hb, hp, execute]

/-- A command with a legal word runs its meaning on the accepted state. -/
theorem step_command (s : State) (c : Command) (rest : List HostAction) (i : Instr) (hb : s.busy = false)
    (hp : s.pending = .command c :: rest) (hd : decode c.word = .ok i) : step s = exec i (accept c rest s) := by
  simp [step, fetch, hb, hp, decodeAccepted, hd, execute]

/-- A command with an illegal word raises EILLEGAL. -/
theorem step_illegal (s : State) (c : Command) (rest : List HostAction) (e : DecodeError) (hb : s.busy = false)
    (hp : s.pending = .command c :: rest) (hd : decode c.word = .error e) :
    step s = .next (raiseError .eillegal (accept c rest s)) := by
  simp [step, fetch, hb, hp, decodeAccepted, hd, execute]

/-- Everything one step can do. -/
theorem step_cases (s : State) :
    (s.busy = false ∧ s.pending = [] ∧ step s = .next s) ∨
    (s.busy = true ∧ (∀ rest, s.pending ≠ .reset :: rest) ∧ step s = .next s) ∨
    (∃ rest, s.busy = true ∧ s.pending = .reset :: rest ∧ step s = .refused .resetWhileBusy) ∨
    (∃ rest, s.busy = false ∧ s.pending = .reset :: rest ∧ step s = .next (applyReset { s with pending := rest })) ∨
    (∃ c rest i, s.busy = false ∧ s.pending = .command c :: rest ∧ decode c.word = .ok i ∧
      step s = exec i (accept c rest s)) ∨
    (∃ c rest e, s.busy = false ∧ s.pending = .command c :: rest ∧ decode c.word = .error e ∧
      step s = .next (raiseError .eillegal (accept c rest s))) := by
  match hb : s.busy, hp : s.pending with
  | false, [] => exact .inl ⟨rfl, rfl, step_idle s hb hp⟩
  | true, [] => exact .inr (.inl ⟨rfl, by simp, step_held s hb (by simp [hp])⟩)
  | true, .command c :: rest => exact .inr (.inl ⟨rfl, by simp, step_held s hb (by simp [hp])⟩)
  | true, .reset :: rest => exact .inr (.inr (.inl ⟨rest, rfl, rfl, step_reset_busy s rest hb hp⟩))
  | false, .reset :: rest => exact .inr (.inr (.inr (.inl ⟨rest, rfl, rfl, step_reset s rest hb hp⟩)))
  | false, .command c :: rest =>
    match hd : decode c.word with
    | .ok i => exact .inr (.inr (.inr (.inr (.inl ⟨c, rest, i, rfl, rfl, hd, step_command s c rest i hb hp hd⟩))))
    | .error e => exact .inr (.inr (.inr (.inr (.inr ⟨c, rest, e, rfl, rfl, hd, step_illegal s c rest e hb hp hd⟩))))

end Sys2Proof.Machine
end

