-- ==== Sys2Proof/Tests/Slice0.lean ====
section
/-! SUPPORT. The model's own tests: expected values from spec/ (95_test_vectors.md and the encoding tables of
30_encoding.md), and for every statement with hypotheses a witness that meets them. -/

namespace Sys2Proof.Machine

/-! ### Helpers -/

/-- The state after one command word with its data bus, presented alone. -/
def after (s : State) (w : BitVec 32) (bs : List Byte) : Option State :=
  match step { s with pending := [.command ⟨w, driveBus bs⟩] } with
  | .next t => some t
  | _ => none

/-- A state in the given phase with `c` bytes 'a' buffered and the given length. -/
def buffered (p : Phase) (c : Nat) (len : DWord) : State :=
  { State.reset with
    phase := p, bufcnt := BitVec.ofNat 6 c, len := len, buf := Memory.ofBytes fun i => if i < c then 0x61 else 0 }

/-- A state with one command presented. -/
def presenting (s : State) (w : BitVec 32) (bs : List Byte) : State :=
  { s with pending := [.command ⟨w, driveBus bs⟩] }

/-- FINALIZED after an empty message's digest, with H left at IV: a small state in which DIGEST is valid. -/
def finalizedState : State := { State.reset with phase := .finalized, digest := some (serialize initialHash) }

/-- "abc". -/
def abc : List Byte := [0x61, 0x62, 0x63]

/-! ### WellFormed -/

/-- R105, R108: NBYTES 65 and 127 are ill formed. -/
theorem test_update_count_above_64_refused :
    Instr.wellFormed (.update 65) = false ∧ Instr.wellFormed (.update 127) = false := by decide

/-- R107: the boundary counts and the two commands without operands are well formed. -/
theorem test_boundary_counts_well_formed :
    Instr.wellFormed .init = true ∧ Instr.wellFormed .final = true ∧ Instr.wellFormed (.update 0) = true ∧
      Instr.wellFormed (.update 64) = true := by decide

/-! ### Decoding, from words written out field by field: RSVD (21 bits), NBYTES (7), OP (4), R101 and R107 -/

/-- R107: OP 0x1. -/
theorem test_decode_init : decode 0b000000000000000000000_0000000_0001 = .ok .init := by decide

/-- R107: OP 0x2, NBYTES 3, 56 and 64 (95 section 2.7 and 2.13 give the words). -/
theorem test_decode_update :
    decode 0b000000000000000000000_0000011_0010 = .ok (.update 3) ∧
    decode 0b000000000000000000000_0111000_0010 = .ok (.update 56) ∧
    decode 0b000000000000000000000_1000000_0010 = .ok (.update 64) ∧ encode (.update 55) = 0x00000372 := by decide

/-- R107: OP 0x3. -/
theorem test_decode_final : decode 0b000000000000000000000_0000000_0011 = .ok .final := by decide

/-- 95 section 2.10: the illegal words, each with its reason. -/
theorem test_decode_illegal_words :
    decode 0x00000000 = .error (.reservedOp 0x0) ∧ decode 0x00000004 = .error (.reservedOp 0x4) ∧
    decode 0x0000000f = .error (.reservedOp 0xf) ∧ decode 0x00000011 = .error (.initWithCount 1) ∧
    decode 0x00000013 = .error (.finalWithCount 1) ∧ decode 0x00000412 = .error (.updateTooLong 65) ∧
    decode 0x000007f2 = .error (.updateTooLong 127) ∧ decode 0x00000802 = .error .reservedBits ∧
    decode 0x00000801 = .error .reservedBits ∧ decode 0x80000001 = .error .reservedBits := by decide

/-- R106, R9: the table's numbering is the word's own; a number of more than 32 bits is no command word. -/
theorem test_decode_table_words :
    decodeTableWord 32 0x1 = some .init ∧ decodeTableWord 32 0x2 = some (.update 0) ∧
    decodeTableWord 32 0x402 = some (.update 64) ∧ decodeTableWord 32 0x3 = some .final ∧
    decodeTableWord 32 0x412 = none ∧ decodeTableWord 40 0x1 = none := by decide

/-- Each command runs as the first one after reset: INIT (95 I1), UPDATE 0 (95 U1). -/
theorem test_fetch_word_init_update :
    (∃ t, step (State.reset.withFetchWord 32 0x1) = .next t ∧ statusReg t = 0x00000000) ∧
    ∃ t, step (State.reset.withFetchWord 32 0x2) = .next t ∧ statusReg t = 0x00000001 :=
  ⟨⟨_, rfl, by decide⟩, _, rfl, by decide⟩

/-- FINAL runs as the first command after reset (95 F1). -/
theorem test_fetch_word_final :
    ∃ t, step (State.reset.withFetchWord 32 0x3) = .next t ∧ statusReg t = 0x00000102 :=
  ⟨_, rfl, by decide⟩

/-! ### Functions (95 sections 2.2, 2.5, 2.11) -/

/-- 95 section 2.2, rows 00000001, 80000000 and 6a09e667. -/
theorem test_mixing_functions :
    (bigSigma0 0x00000001, bigSigma1 0x00000001, smallSigma0 0x00000001, smallSigma1 0x00000001) =
      (0x40080400, 0x04200080, 0x02004000, 0x0000a000) ∧
    (bigSigma0 0x80000000, bigSigma1 0x80000000, smallSigma0 0x80000000, smallSigma1 0x80000000) =
      (0x20040200, 0x02100040, 0x11002000, 0x00205000) ∧
    (bigSigma0 0x6a09e667, bigSigma1 0x6a09e667, smallSigma0 0x6a09e667, smallSigma1 0x6a09e667) =
      (0xce20b47e, 0x55b65510, 0xba0cf582, 0xcfe5da3c) := by decide

/-- 95 section 2.2, the table of Ch and Maj. -/
theorem test_choose_and_majority :
    ch 0xff00ff00 0xaaaaaaaa 0x55555555 = 0xaa55aa55 ∧ maj 0xff00ff00 0xaaaaaaaa 0x55555555 = 0xff00ff00 ∧
    ch 0x510e527f 0x9b05688c 0x1f83d9ab = 0x1f85c98c ∧ maj 0x510e527f 0x9b05688c 0x1f83d9ab = 0x1b0758af := by decide

/-- 95 section 2.11, last row. -/
theorem test_serializer :
    serialize #v[0x01234567, 0x89abcdef, 0, 0, 0, 0, 0, 0x000000ff] =
      #v[0x01, 0x23, 0x45, 0x67, 0x89, 0xab, 0xcd, 0xef, 0, 0, 0, 0, 0, 0, 0, 0, 0, 0, 0, 0, 0, 0, 0, 0, 0, 0, 0, 0, 0, 0,
        0, 0xff] := by decide

/-- R110: the three forms of a byte operand. -/
theorem test_assembler_operands :
    operandBytes (.ascii "abc") = some abc ∧ operandBytes (.hex "61fF") = some [0x61, 0xff] ∧
    operandBytes (.copies 0x61 3) = some [0x61, 0x61, 0x61] ∧ operandBytes (.hex "6") = none := by decide

/-! ### Commands (95 sections 2.7 to 2.10) -/

/-- 95 I2: INIT in a state with ERR set. -/
theorem test_init_clears_error :
    (after { buffered .accum 3 3 with err := true, lastResp := .eillegal } 0x00000001 []).map
      (fun t => (statusReg t, lenReg t, t.h == initialHash, t.digest)) = some (0x00000000, 0, true, none) := by
  decide

/-- 95 U10: LEN wraps. -/
theorem test_update_wraps_len :
    (after (buffered .accum 1 0xffffffffffffffff) 0x00000012 [0x62]).map
      (fun t => (statusReg t, lenReg t, bufferedBytes t)) = some (0x00000009, 0, [0x61, 0x62]) := by decide

/-- 95 F10, U11 and section 2.10: the errors in FINALIZED, by STATUS. -/
theorem test_errors_in_finalized :
    (after finalizedState 0x00000003 []).map statusReg = some 0x00000702 ∧
    (after finalizedState 0x00000002 []).map statusReg = some 0x00000702 ∧
    (after finalizedState 0x00000013 []).map statusReg = some 0x00000b02 := by decide

/-! ### Witnesses: states and operands that meet every statement's hypotheses -/

theorem test_witness_round_trip : Instr.wellFormed .init = true ∧ Instr.wellFormed (.update 64) = true := by decide

/-- For StepRunsDecodedCommand, DispatchChecksLegalityThenPhase, LastRespIsCodeOfLastResponse,
OnlyFinalRespondsWithDigest and PhaseTransitionTable: each command, and an illegal word, in each phase. -/
theorem test_witness_presented_command (p : Phase) :
    ∀ w ∈ ([0x1, 0x402, 0x3, 0x412] : List (BitVec 32)),
      (presenting (buffered p 0 0) w []).busy = false ∧
      (presenting (buffered p 0 0) w []).pending = .command ⟨w, driveBus []⟩ :: [] ∧
      (presenting (buffered p 0 0) w []).phase = p := by
  intro w _; exact ⟨rfl, rfl, rfl⟩

/-- Each branch of DispatchChecksLegalityThenPhase: the illegal word, and each operation of a legal one. -/
theorem test_witness_dispatch_branches :
    legal 0x412 = false ∧ (legal 0x1 = true ∧ (0x1 : BitVec 32).extractLsb' 0 4 = 0x1) ∧
    (legal 0x402 = true ∧ (0x402 : BitVec 32).extractLsb' 0 4 = 0x2) ∧
    (legal 0x3 = true ∧ (0x3 : BitVec 32).extractLsb' 0 4 = 0x3) := by decide

/-- Each cause of IllegalWordRespondsEillegal at a boundary. -/
theorem test_witness_illegal_causes :
    (0x0 : BitVec 32).extractLsb' 0 4 = 0x0 ∧ 0x4 ≤ (0x4 : BitVec 32).extractLsb' 0 4 ∧
    0x4 ≤ (0xf : BitVec 32).extractLsb' 0 4 ∧
    (0x80000001 : BitVec 32).extractLsb' 11 21 ≠ 0 ∧ (0x801 : BitVec 32).extractLsb' 11 21 ≠ 0 ∧
    ((0x11 : BitVec 32).extractLsb' 0 4 = 0x1 ∧ (0x11 : BitVec 32).extractLsb' 4 7 ≠ 0) ∧
    ((0x13 : BitVec 32).extractLsb' 0 4 = 0x3 ∧ (0x13 : BitVec 32).extractLsb' 4 7 ≠ 0) ∧
    ((0x412 : BitVec 32).extractLsb' 0 4 = 0x2 ∧ 64 < ((0x412 : BitVec 32).extractLsb' 4 7).toNat) := by decide

/-- FinalizedUseRespondsEviolation and OverlongUpdateIsIllegal. -/
theorem test_witness_finalized_and_overlong :
    finalizedState.phase = .finalized ∧ (64 : BitVec 7).toNat ≤ 64 ∧ 64 < (65 : BitVec 7).toNat := by decide

/-- ErrIsSticky: each of its cases is a step. -/
theorem test_witness_err_cases :
    (∃ t, step (presenting { State.reset with err := true } 0x2 []) = .next t ∧ t.err = true) ∧
    (∃ t, step (presenting { State.reset with err := true } 0x1 []) = .next t ∧ t.err = false) ∧
    (∃ t, step (presenting State.reset 0x0 []) = .next t ∧ t.err = true) ∧
    (∃ t, step { State.reset with err := true, pending := [.reset] } = .next t ∧ t.err = false) ∧
    (∃ t, step { State.reset with err := true } = .next t ∧ t.err = true) ∧
    ∃ t, step { State.reset with err := true, busy := true } = .next t ∧ t.err = true :=
  ⟨⟨_, rfl, by decide⟩, ⟨_, rfl, rfl⟩, ⟨_, rfl, rfl⟩, ⟨_, rfl, rfl⟩, ⟨_, rfl, rfl⟩, _, rfl, rfl⟩

/-- CompletedCommandConsumesItsBus: each command completes. -/
theorem test_witness_completed_commands :
    (∃ t, exec .init State.reset = .next t) ∧ (∃ t, exec (.update 64) State.reset = .next t) ∧
    ∃ t, exec .final State.reset = .next t := ⟨⟨_, rfl⟩, ⟨_, rfl⟩, _, rfl⟩

/-- IdleAndBusyHoldState: both of its cases, the second with a command presented. -/
theorem test_witness_idle_and_busy :
    (State.reset.busy = false ∧ State.reset.pending = []) ∧
    ∃ s : State, s.busy = true ∧ s.pending ≠ [] ∧ ∀ rest, s.pending ≠ .reset :: rest :=
  ⟨by decide, presenting { State.reset with busy := true } 0x1 [], rfl, by simp [presenting], by simp [presenting]⟩

/-- ResetValues and ResetActionStartsCleanSession: a reset action and an INIT in FINALIZED with ERR set. -/
theorem test_witness_reset_and_init :
    (∃ s rest, s.busy = false ∧ s.pending = .reset :: rest ∧ s.phase = .finalized ∧ ∃ t, step s = .next t) ∧
    ∃ s t, s.phase = .finalized ∧ exec .init s = .next t :=
  ⟨⟨{ finalizedState with err := true, pending := [.reset] }, [], rfl, rfl, rfl, _, rfl⟩, finalizedState, _, rfl, rfl⟩

/-- UpdateAbsorbsBeat: c + n is 63 and 64, where its two cases meet, and 127, where the second ends. -/
theorem test_witness_update_boundaries :
    ((0 : BitVec 7).toNat ≤ 64 ∧ (buffered .accum 63 63).phase ≠ .finalized ∧
      (buffered .accum 63 63).bufcnt.toNat + (0 : BitVec 7).toNat = 63) ∧
    ((1 : BitVec 7).toNat ≤ 64 ∧ (buffered .accum 63 63).bufcnt.toNat + (1 : BitVec 7).toNat = 64) ∧
    ((64 : BitVec 7).toNat ≤ 64 ∧ (buffered .accum 63 63).bufcnt.toNat + (64 : BitVec 7).toNat = 127) ∧
    (State.reset.phase ≠ .finalized ∧ State.reset.bufcnt.toNat + (63 : BitVec 7).toNat = 63) := by decide

/-- StaleBytesStayInPlace: 64 bytes into an empty buffer, and one byte into a buffer of 63. -/
theorem test_witness_stale_bytes :
    (State.reset.phase ≠ .finalized ∧ 64 ≤ State.reset.bufcnt.toNat + (64 : BitVec 7).toNat) ∧
    ((buffered .accum 63 63).phase ≠ .finalized ∧
      64 ≤ (buffered .accum 63 63).bufcnt.toNat + (1 : BitVec 7).toNat) := by decide

/-- UpdateFrame: an UPDATE completes; BUF[2] is outside a beat of 64 bytes less two at BUFCNT = 3; and each further case's
premises hold somewhere. -/
theorem test_witness_update_frame :
    (∃ t, exec (.update 62) (buffered .accum 3 3) = .next t) ∧ (∀ j < 62, storedIndex (buffered .accum 3 3) j ≠ 2) ∧
    64 < (65 : BitVec 7).toNat ∧ finalizedState.phase = .finalized ∧
    (buffered .accum 3 3).bufcnt.toNat + (60 : BitVec 7).toNat < 64 :=
  ⟨⟨_, rfl⟩, by decide, by decide, rfl, by decide⟩

/-- ZeroLengthUpdateOnlyMovesPhase and FinalPadsCompressesAndReturnsDigest: FRESH and ACCUM, with 55 and 56 bytes. -/
theorem test_witness_phases_and_counts :
    State.reset.phase ≠ .finalized ∧ (buffered .accum 55 55).phase ≠ .finalized ∧
    (buffered .accum 55 55).bufcnt.toNat ≤ 55 ∧ (buffered .accum 56 56).phase ≠ .finalized ∧
    ¬ (buffered .accum 56 56).bufcnt.toNat ≤ 55 := by decide

/-- DataBeyondCountIsIgnored: two buses that differ at and above the count (95 U3). -/
theorem test_witness_data_beyond_count :
    State.reset.busy = false ∧ decode 0x00000052 = .ok (.update 5) ∧ driveBus (List.replicate 5 0x61) ≠ driveBus (List.replicate 64 0x61) ∧
    ∀ i < 5, (driveBus (List.replicate 5 0x61)).toList.getD i 0 = (driveBus (List.replicate 64 0x61)).toList.getD i 0 := by
  decide

/-- LenCountsMessageBytes: the step in which LEN wraps to 0, and one that leaves it. -/
theorem test_witness_len_cases :
    (∃ t, step (presenting (buffered .accum 1 0xffffffffffffffff) 0x12 [0x62]) = .next t ∧ t.len = 0) ∧
    ∃ t, step (presenting (buffered .accum 3 3) 0x3 []) = .next t ∧ t.len = 3 :=
  ⟨⟨_, rfl, by decide⟩, _, rfl, by decide⟩

/-- ChunkingInvariance, SessionReturnsMessageDigest and CleanEntryRunProducesMessageDigest: three cuts of 65 bytes, a full
beat and an empty one among them. -/
theorem test_witness_chunkings :
    State.reset.busy = false ∧ State.reset.phase ≠ .finalized ∧ cleanEntry State.reset = true ∧
    (∀ b ∈ ([List.replicate 64 0x61, [0x61]] : List (List Byte)), b.length ≤ 64) ∧
    (∀ b ∈ ([[0x61], [], List.replicate 64 0x61] : List (List Byte)), b.length ≤ 64) ∧
    ([List.replicate 64 0x61, [0x61]] : List (List Byte)).flatten = [[0x61], [], List.replicate 64 0x61].flatten := by
  decide

/-- PadBlocksByteForByte: the counts where its cases meet and end. -/
theorem test_witness_pad_counts :
    (List.replicate 55 (0x61 : Byte)).length ≤ 55 ∧ ¬ (List.replicate 56 (0x61 : Byte)).length ≤ 55 ∧
    (List.replicate 63 (0x61 : Byte)).length ≤ 63 := by decide

/-- ShiftAndRotateBits, ChooseAndMajorityBits and ScheduleRecurrence: the ends of their ranges. -/
theorem test_witness_ranges : (31 : Nat) < 32 ∧ 0 < 31 ∧ 16 ≤ 16 ∧ (16 : Nat) < 64 ∧ 16 ≤ 63 ∧ (63 : Nat) < 64 := by decide

/-- DigestReadableExactlyWhenFinalized and StepKeepsSessionInvariants: the invariants hold in a FINALIZED state, from which
a command steps. -/
theorem test_witness_invariants_finalized : SessionInv finalizedState ∧ finalizedState.phase = .finalized ∧
    SessionInv (presenting finalizedState 0x2 []) ∧ ∃ t, step (presenting finalizedState 0x2 []) = .next t := by
  refine ⟨?_, rfl, ?_, _, rfl⟩ <;>
    exact ⟨rfl, rfl, fun h => absurd rfl h, (fun h => nomatch h), fun _ => ⟨rfl, rfl⟩, fun h => absurd rfl h,
      fun h => absurd rfl h, (fun _ h => nomatch h)⟩

/-- StepKeepsSessionInvariants: with a beat that leaves three bytes buffered. -/
theorem test_witness_invariants_accum : SessionInv (presenting (buffered .accum 3 3) 0x402 []) ∧
    ∃ t, step (presenting (buffered .accum 3 3) 0x402 []) = .next t := by
  refine ⟨⟨rfl, by decide, fun _ => by decide, (fun h => nomatch h), (fun h => nomatch h), fun _ => rfl,
    fun h => absurd rfl h, (fun _ h => nomatch h)⟩, _, rfl⟩

/-- DigestImmutableWhileValid: a step that keeps DIGEST and the two that end it. -/
theorem test_witness_digest_lifetime :
    finalizedState.phase = .finalized ∧
    (∃ t, step (presenting finalizedState 0x3 []) = .next t ∧ t.phase = .finalized) ∧
    (∃ t, step (presenting finalizedState 0x1 []) = .next t ∧ t.phase = .fresh) ∧
    ∃ t, step { finalizedState with pending := [.reset] } = .next t ∧ t.phase = .fresh :=
  ⟨rfl, ⟨_, rfl, rfl⟩, ⟨_, rfl, rfl⟩, _, rfl, rfl⟩

/-- HashChangesOnlyByLoadOrCompression: H changes in an INIT and in a reset. -/
theorem test_witness_hash_loaded :
    (∃ t, step (presenting { State.reset with h := Vector.replicate 8 0 } 0x1 []) = .next t ∧
      t.h ≠ Vector.replicate 8 0) ∧
    ∃ t, step { State.reset with h := Vector.replicate 8 0, pending := [.reset] } = .next t ∧ t.h ≠ Vector.replicate 8 0 :=
  ⟨⟨_, rfl, by decide⟩, _, rfl, by
    show initialHash ≠ _
    decide⟩

/-- StaleBytesAreNeverRead: two states that differ in BUF[3], with three bytes buffered; they step to next states with a
FINAL presented, and are refused with a reset presented while BUSY = 1. -/
theorem test_witness_stale_difference :
    let s := presenting (buffered .accum 3 3) 0x3 []
    let t := memWrite s 3 0x7a
    s ≠ t ∧ sameButStale s t ∧ (∃ u, step s = .next u) ∧ (∃ u, step t = .next u) ∧
    sameButStale { s with busy := true, pending := [.reset] } { t with busy := true, pending := [.reset] } :=
  ⟨by decide, ⟨rfl, by decide⟩, ⟨_, rfl⟩, ⟨_, rfl⟩, ⟨rfl, by decide⟩⟩

/-- CanonicalBufIsDeterminedByReads: the same bytes written in two orders, one of them written over and cleared. -/
theorem test_witness_canonical_memories :
    let m := Memory.write (Memory.write [] 63 0x61) 0 0x62
    let k := Memory.write (Memory.write (Memory.write (Memory.write [] 0 0x62) 7 0x01) 63 0x61) 7 0x00
    Memory.wf m = true ∧ Memory.wf k = true ∧ ∀ a < 64, Memory.read m a = Memory.read k a := by decide

/-- UpdatenAbsorbsData and HashReturnsMessageDigest: both phases of the first, and data of more than a beat. -/
theorem test_witness_sequences :
    State.reset.busy = false ∧ State.reset.phase ≠ .finalized ∧ finalizedState.busy = false ∧
    finalizedState.phase = .finalized ∧ (updatenCommands (List.replicate 65 0x61)).length = 2 := by decide

/-- TimedBindingRefinesAtomicStep: a FINAL presented from reset, with another command behind it. -/
theorem test_witness_timed :
    let c : Command := ⟨0x3, driveBus []⟩
    let t : TimedState := { TimedState.reset with core := { State.reset with pending := [.command c, .command c] } }
    t.running = none ∧ t.core.busy = false ∧ t.core.pending = .command c :: [.command c] ∧
    (∀ more, [HostAction.command c] ≠ .reset :: more) ∧ (∃ u, step t.core = .next u) ∧ 1 ≤ latency c.word t.core :=
  ⟨rfl, rfl, rfl, by simp, ⟨_, rfl⟩, by
    show 1 ≤ 1 + Config.latFinalExtra _
    omega⟩

/-- LatencyDependsOnPermittedInputs: two illegal words with the same OP and NBYTES, in states that differ in LEN. -/
theorem test_witness_latency :
    (0x801 : BitVec 32) ≠ 0x1001 ∧ opField 0x801 = opField 0x1001 ∧ nbytesField 0x801 = nbytesField 0x1001 ∧
    legal 0x801 = legal 0x1001 ∧ (buffered .accum 3 3).phase = (buffered .accum 3 67).phase ∧
    (buffered .accum 3 3).bufcnt = (buffered .accum 3 67).bufcnt ∧
    (buffered .accum 3 3).len ≠ (buffered .accum 3 67).len := by decide

/-- InstancesAreIndependent: two instances, a command presented to each. -/
theorem test_witness_two_instances :
    let p := presentTo (presentTo (platformReset 2 (by decide)) 0 (.command ⟨0x1, undrivenBus⟩)) 1 (.command ⟨0x3, undrivenBus⟩)
    (0 : Fin 2) ≠ 1 ∧ (∃ q, stepInstance p 0 = .next q) ∧ ∃ r, stepInstance p 1 = .next r :=
  ⟨by decide, ⟨_, rfl⟩, _, rfl⟩

/-! ### Tests that only the kernel evaluates, last because each takes it a second or more -/

/-- 95 section 2.3: schedule words of the block of "abc". -/
theorem test_schedule_of_abc :
    let w := schedule (driveBus (abc ++ [0x80] ++ List.replicate 59 0 ++ [0x18]))
    w.getD 0 0 = 0x61626380 ∧ w.getD 17 0 = 0x000f0000 ∧ w.getD 18 0 = 0x7da86405 ∧ w.getD 63 0 = 0x12b1edeb := by
  decide +kernel

/-- 95 section 2.5: one block at c = 55, two at c = 56, and the wrapped length of L = 2^61 + 8. -/
theorem test_padding_blocks :
    (padBlocks (List.replicate 55 0x61) 55).map Vector.toList =
      [List.replicate 55 0x61 ++ [0x80, 0, 0, 0, 0, 0, 0, 0x01, 0xb8]] ∧
    (padBlocks (List.replicate 56 0x61) 56).map Vector.toList =
      [List.replicate 56 0x61 ++ [0x80, 0, 0, 0, 0, 0, 0, 0], List.replicate 62 0 ++ [0x01, 0xc0]] ∧
    bitLength (2 ^ 61 + 8) = 0x40 := by decide +kernel

/-- R112: UPDATEN of 130 bytes is two full beats and one of two bytes; R113: HASH of no data is INIT and FINAL. -/
theorem test_pseudo_instructions :
    (updatenCommands (List.replicate 130 0)).map Command.word = [0x402, 0x402, 0x22] ∧
    (hashCommands []).map Command.word = [0x1, 0x3] := by decide +kernel

/-- 95 U7: a beat that completes a block and buffers 63 bytes more. -/
theorem test_update_crosses_block :
    (after (buffered .accum 63 63) 0x00000402 (List.replicate 64 0x62)).map
      (fun t => (statusReg t, lenReg t, bufferedBytes t, t.h)) =
      some (0x000000fd, 127, List.replicate 63 0x62,
        #v[0x77c8c95c, 0x8e20063d, 0x725c39ca, 0x53ba98e7, 0x012e78d6, 0xb576bd7f, 0x67eaa2fc, 0x7998ae63]) := by
  decide +kernel

/-- 95 F5: the two-block FINAL of 56 bytes 'a'. -/
theorem test_final_spills :
    (after (buffered .accum 56 56) 0x00000003 []).map (fun t => (statusReg t, lenReg t, t.digest)) =
      some (0x00000102, 56, some (serialize
        #v[0xb35439a4, 0xac6f0948, 0xb6d6f9e3, 0xc6af0f5f, 0x590ce20f, 0x1bde7090, 0xef797068, 0x6ec6738a])) := by
  decide +kernel

/-- 95 F9: the length field of L = 2^61 + 8 wraps. -/
theorem test_final_wraps_length_field :
    (after (buffered .accum 8 (2 ^ 61 + 8)) 0x00000003 []).map (fun t => t.digest) =
      some (some (serialize
        #v[0x1f3ce404, 0x15a2081f, 0xa3eee75f, 0xc39fff8e, 0x56c22270, 0xd1a978a7, 0x249b592d, 0xcebd20b4])) := by
  decide +kernel

/-- HashChangesOnlyByLoadOrCompression: H changes in an UPDATE that completes a block and in a FINAL. -/
theorem test_witness_hash_compressed :
    (∃ t, step (presenting (buffered .accum 63 63) 0x12 [0x61]) = .next t ∧ t.h ≠ initialHash) ∧
    ∃ t, step (presenting State.reset 0x3 []) = .next t ∧ t.h ≠ initialHash :=
  ⟨⟨_, rfl, by decide +kernel⟩, _, rfl, by decide +kernel⟩

end Sys2Proof.Machine
end

section
/-! PROOFS. R11 and R12 of 00_scope.md: the shift and the rotation, and the byte-order primitives. -/

namespace Sys2Proof.Machine

/-- R11: SHR is division by a power of two. -/
theorem shr_toNat (x : Word) (n : Nat) : (shr x n).toNat = x.toNat / 2 ^ n := by
  rw [shr, BitVec.toNat_ushiftRight, Nat.shiftRight_eq_div_pow]

/-- For the amounts R11 admits, ROTR is the library's rotation. -/
theorem rotr_eq_rotateRight (x : Word) {n : Nat} (hn : n < 32) : rotr x n = x.rotateRight n := by
  rw [rotr, shr, BitVec.rotateRight_def, Nat.mod_eq_of_lt hn]

/-- R11: bit i of ROTR(x, n) is the bit n places up, counted modulo the width. -/
theorem rotr_getLsbD (x : Word) {n i : Nat} (hn : n < 32) (hi : i < 32) :
    (rotr x n).getLsbD i = x.getLsbD ((i + n) % 32) := by
  rw [rotr_eq_rotateRight x hn, BitVec.getLsbD_rotateRight_of_lt hn]
  by_cases h : i < 32 - n
  · have hmod : (i + n) % 32 = n + i := by omega
    simp [h, hmod]
  · have hmod : (i + n) % 32 = i - (32 - n) := by omega
    simp [h, hi, hmod]

/-- Settles O31: SHR as a division, ROTR through the library's rotation. -/
theorem shiftAndRotateBits : Obligations.ShiftAndRotateBits :=
  fun x n _ hn hi => ⟨shr_toNat x n, fun _ => rotr_getLsbD x hn hi⟩

/-- A byte appended below is a new lowest digit to base 2^8. -/
theorem toNat_append_byte {w : Nat} (x : BitVec w) (b : Byte) : (x ++ b).toNat = x.toNat * 2 ^ 8 + b.toNat := by
  rw [BitVec.toNat_append, ← Nat.shiftLeft_add_eq_or_of_lt b.isLt, Nat.shiftLeft_eq]

/-- R12: the number be32 reads. -/
theorem be32_toNat (b0 b1 b2 b3 : Byte) :
    (be32 b0 b1 b2 b3).toNat = b0.toNat * 2 ^ 24 + b1.toNat * 2 ^ 16 + b2.toNat * 2 ^ 8 + b3.toNat := by
  rw [be32, toNat_append_byte, toNat_append_byte, toNat_append_byte]
  ring

/-- The byte of a word at bit k is the word's digit of weight 2^k to base 2^8. -/
theorem toNat_extract_byte {w : Nat} (x : BitVec w) (k : Nat) :
    (x.extractLsb' k 8).toNat = x.toNat / 2 ^ k % 2 ^ 8 := by
  rw [BitVec.extractLsb'_toNat, Nat.shiftRight_eq_div_pow]

/-- The byte of be32 at bit k, once arithmetic has found the digit there. -/
theorem be32_extract_byte (b0 b1 b2 b3 b : Byte) (k : Nat)
    (h : (b0.toNat * 2 ^ 24 + b1.toNat * 2 ^ 16 + b2.toNat * 2 ^ 8 + b3.toNat) / 2 ^ k % 2 ^ 8 = b.toNat) :
    (be32 b0 b1 b2 b3).extractLsb' k 8 = b := by
  apply BitVec.eq_of_toNat_eq
  rw [toNat_extract_byte, be32_toNat, h]

/-- R12: unbe32 takes apart what be32 put together, since a number has one expansion in bytes. -/
@[simp] theorem unbe32_be32 (b0 b1 b2 b3 : Byte) : unbe32 (be32 b0 b1 b2 b3) = #v[b0, b1, b2, b3] := by
  have h0 : (be32 b0 b1 b2 b3).extractLsb' 24 8 = b0 := be32_extract_byte _ _ _ _ _ 24 (by omega)
  have h1 : (be32 b0 b1 b2 b3).extractLsb' 16 8 = b1 := be32_extract_byte _ _ _ _ _ 16 (by omega)
  have h2 : (be32 b0 b1 b2 b3).extractLsb' 8 8 = b2 := be32_extract_byte _ _ _ _ _ 8 (by omega)
  have h3 : (be32 b0 b1 b2 b3).extractLsb' 0 8 = b3 := be32_extract_byte _ _ _ _ _ 0 (by omega)
  simp only [unbe32, h0, h1, h2, h3]

/-- R12: be32 puts together what unbe32 took apart, since a word is the sum of its digits to base 2^8. -/
@[simp] theorem be32_unbe32 (w : Word) :
    be32 (unbe32 w)[0] (unbe32 w)[1] (unbe32 w)[2] (unbe32 w)[3] = w := by
  show be32 (w.extractLsb' 24 8) (w.extractLsb' 16 8) (w.extractLsb' 8 8) (w.extractLsb' 0 8) = w
  apply BitVec.eq_of_toNat_eq
  simp only [be32_toNat, toNat_extract_byte]
  omega

/-- R12: byte i of unbe64, counted from the most significant. -/
@[simp] theorem unbe64_getElem (v : DWord) (i : Nat) (hi : i < 8) :
    (unbe64 v)[i] = v.extractLsb' (56 - 8 * i) 8 := by
  interval_cases i <;> rfl

/-- Settles O30: be32 as a number, its two inverse laws with unbe32, and the bytes of unbe64. -/
theorem byteOrderPrimitives : Obligations.ByteOrderPrimitives :=
  ⟨fun b0 b1 b2 b3 => ⟨be32_toNat b0 b1 b2 b3, unbe32_be32 b0 b1 b2 b3⟩,
    fun w => ⟨rfl, be32_unbe32 w⟩, fun v i => unbe64_getElem v i i.isLt⟩

end Sys2Proof.Machine
end

section
/-! PROOFS. BUF's canonical form (R13, R32; log 2): a canonical memory lists exactly the bytes that read as other than the
unlisted one, so its reads determine it. -/

namespace Sys2Proof.Machine

/-- With addresses strictly rising, a lookup finds every listed cell. -/
theorem lookup_eq_some_iff_mem (m : Memory) (hp : m.Pairwise fun c d => c.1 < d.1) (a : Nat) (b : Byte) :
    m.lookup a = some b ↔ (a, b) ∈ m := by
  induction m with
  | nil => simp
  | cons c rest ih =>
    obtain ⟨x, v⟩ := c
    obtain ⟨hx, hr⟩ := List.pairwise_cons.mp hp
    by_cases ha : a = x
    · subst ha
      have hrest : (a, b) ∉ rest := fun hm => lt_irrefl a (hx _ hm)
      simp [hrest, eq_comm]
    · simp [List.lookup_cons, beq_eq_false_iff_ne.mpr ha, ih hr, ha]

/-- A canonical memory lists a byte exactly when it reads as that byte and an unlisted address does not. -/
theorem mem_iff_read (m : Memory) (hm : Memory.wf m = true) (a : Nat) (b : Byte) :
    (a, b) ∈ m ↔ Memory.read m a = b ∧ b ≠ unlistedByte := by
  obtain ⟨hp, hc⟩ := (wf_iff m).mp hm
  constructor
  · intro hmem
    have hl : m.lookup a = some b := (lookup_eq_some_iff_mem m hp a b).mpr hmem
    exact ⟨by simp [Memory.read, hl], (hc _ hmem).2⟩
  · rintro ⟨hread, hb⟩
    rw [← lookup_eq_some_iff_mem m hp]
    cases hl : m.lookup a with
    | none => exact absurd (by simpa [Memory.read, hl] using hread.symm) hb
    | some v => simpa [Memory.read, hl] using hread

/-- Strictly rising addresses leave a memory no choice of order: it is determined by the cells it lists. -/
theorem eq_of_mem_iff_of_rising (m k : Memory) (hm : m.Pairwise fun c d => c.1 < d.1)
    (hk : k.Pairwise fun c d => c.1 < d.1) (h : ∀ c, c ∈ m ↔ c ∈ k) : m = k := by
  have nodup : ∀ l : Memory, (l.Pairwise fun c d => c.1 < d.1) → l.Nodup :=
    fun _ hl => hl.imp fun hlt heq => hlt.ne (congrArg Prod.fst heq)
  exact ((List.perm_ext_iff_of_nodup (nodup m hm) (nodup k hk)).mpr h).eq_of_pairwise
    (fun _ _ _ _ hcd hdc => absurd hcd hdc.asymm) hm hk

/-- A canonical memory's cells are among those of any canonical memory that reads the same inside BUF. -/
theorem mem_of_read_eq (m k : Memory) (hm : Memory.wf m = true) (hk : Memory.wf k = true)
    (h : ∀ a < 64, Memory.read m a = Memory.read k a) (c : Host.Cell) (hc : c ∈ m) : c ∈ k := by
  obtain ⟨a, b⟩ := c
  have ha : a < 64 := (((wf_iff m).mp hm).2 _ hc).1
  rw [mem_iff_read k hk, ← h a ha]
  exact (mem_iff_read m hm a b).mp hc

/-- Settles O48: the two memories list the same cells, in the one rising order. -/
theorem canonicalBufIsDeterminedByReads : Obligations.CanonicalBufIsDeterminedByReads :=
  fun m k hm hk h => eq_of_mem_iff_of_rising m k ((wf_iff m).mp hm).1 ((wf_iff k).mp hk).1 fun c =>
    ⟨mem_of_read_eq m k hm hk h c, mem_of_read_eq k m hk hm (fun a ha => (h a ha).symm) c⟩

end Sys2Proof.Machine
end

section
/-! PROOFS. What a step can become, as two relations: the five ways an accepted command completes, and the next states of a
step. The proofs about steps go by cases on them. -/

namespace Sys2Proof.Machine

/-- The ways the command `c`, accepted in the state `a`, completes (43_accumulator.md R285). -/
inductive Completion (c : Command) (a : State) : State → Prop
  /-- INIT starts a new session. -/
  | init (hd : decode c.word = .ok .init) : Completion c a (respond .ok none (newSession a))
  /-- UPDATE and FINAL in FINALIZED. -/
  | violation (i : Instr) (hd : decode c.word = .ok i) (hi : i ≠ .init) (hp : a.phase = .finalized) :
    Completion c a (raiseError .eviolation a)
  /-- UPDATE absorbs its beat. -/
  | absorbed (n : BitVec 7) (hd : decode c.word = .ok (.update n)) (hn : n.toNat ≤ 64) (hp : a.phase ≠ .finalized) :
    Completion c a (respond .ok none { absorbBytes a (beatBytes n a) with
      len := a.len + n.setWidth 64, phase := .accum, lastResp := .ok })
  /-- FINAL returns the digest. -/
  | finished (h : HashState) (hd : decode c.word = .ok .final) (hp : a.phase ≠ .finalized)
    (hh : h = compressBlocks a.h (padBlocks (bufferedBytes a) a.len)) :
    Completion c a (respond .ok (some (serialize h))
      { a with h := h, digest := some (serialize h), bufcnt := 0, phase := .finalized, lastResp := .ok })
  /-- An illegal word. -/
  | illegal (e : DecodeError) (hd : decode c.word = .error e) : Completion c a (raiseError .eillegal a)

/-- The next states of a step: the state is held, the reset action is taken, or a command completes. -/
inductive Transition (s : State) : State → Prop
  | held (h : s.busy = false ∧ s.pending = [] ∨ s.busy = true ∧ ∀ rest, s.pending ≠ .reset :: rest) : Transition s s
  | reset (rest : List HostAction) (hb : s.busy = false) (hp : s.pending = .reset :: rest) :
    Transition s (applyReset { s with pending := rest })
  | command (c : Command) (rest : List HostAction) (t : State) (hb : s.busy = false)
    (hp : s.pending = .command c :: rest) (hc : Completion c (accept c rest s) t) : Transition s t

/-- The meaning of a decoded command answers one of the completions: its count is legal, so none is overlong. -/
theorem exec_completes (c : Command) (a : State) (i : Instr) (hd : decode c.word = .ok i) :
    ∃ t, exec i a = .next t ∧ Completion c a t := by
  rcases exec_cases i a with ⟨rfl, he⟩ | ⟨⟨n, rfl, hn⟩, -⟩ | ⟨hi, -, hp, he⟩ | ⟨n, rfl, hn, hp, he⟩ | ⟨rfl, hp, he⟩
  · exact ⟨_, he, .init hd⟩
  · obtain ⟨-, -, -, hle⟩ := (decode_ok_update c.word n).mp hd
    omega
  · exact ⟨_, he, .violation i hd hi hp⟩
  · exact ⟨_, he, .absorbed n hd hn hp⟩
  · exact ⟨_, he, .finished _ hd hp rfl⟩

/-- A command presented while BUSY = 0 completes in one step. -/
theorem step_completes (s : State) (c : Command) (rest : List HostAction) (hb : s.busy = false)
    (hp : s.pending = .command c :: rest) : ∃ t, step s = .next t ∧ Completion c (accept c rest s) t := by
  cases hd : decode c.word with
  | ok i =>
    rw [step_command s c rest i hb hp hd]
    exact exec_completes c _ i hd
  | error e => exact ⟨_, step_illegal s c rest e hb hp hd, .illegal e hd⟩

/-- Every completion is one: the step that takes the command answers it. -/
theorem step_of_completion {s t : State} {c : Command} {rest : List HostAction} (hb : s.busy = false)
    (hp : s.pending = .command c :: rest) (hc : Completion c (accept c rest s) t) : step s = .next t := by
  cases hc with
  | init hd => exact step_command s c rest .init hb hp hd
  | violation i hd hi hf =>
    rw [step_command s c rest i hb hp hd]
    cases i with
    | init => exact absurd rfl hi
    | update n =>
      obtain ⟨-, -, -, hn⟩ := (decode_ok_update c.word n).mp hd
      exact exec_update_finalized n _ hn hf
    | final => exact exec_final_finalized _ hf
  | absorbed n hd hn hf => rw [step_command s c rest _ hb hp hd, exec_update_absorbs n _ hn hf]
  | finished h hd hf hh => rw [step_command s c rest _ hb hp hd, exec_final_returns _ hf, ← hh]
  | illegal e hd => exact step_illegal s c rest e hb hp hd

/-- A step takes a transition, but for a reset asserted while a command executes. -/
theorem step_transition_or_refused (s : State) :
    (∃ t, step s = .next t ∧ Transition s t) ∨
    ∃ rest, s.busy = true ∧ s.pending = .reset :: rest ∧ step s = .refused .resetWhileBusy := by
  rcases step_cases s with ⟨hb, hp, he⟩ | ⟨hb, hp, he⟩ | hr | ⟨rest, hb, hp, he⟩ | ⟨c, rest, -, hb, hp, -⟩ |
    ⟨c, rest, -, hb, hp, -⟩
  · exact .inl ⟨s, he, .held (.inl ⟨hb, hp⟩)⟩
  · exact .inl ⟨s, he, .held (.inr ⟨hb, hp⟩)⟩
  · exact .inr hr
  · exact .inl ⟨_, he, .reset rest hb hp⟩
  all_goals
    obtain ⟨t, he, hc⟩ := step_completes s c rest hb hp
    exact .inl ⟨t, he, .command c rest t hb hp hc⟩

/-- The next states of a step are the transitions. -/
theorem step_next_iff (s t : State) : step s = .next t ↔ Transition s t := by
  constructor
  · intro h
    obtain ⟨u, hu, hT⟩ | ⟨rest, -, -, hr⟩ := step_transition_or_refused s
    · exact Host.Outcome.next.inj (hu.symm.trans h) ▸ hT
    · exact nomatch hr.symm.trans h
  · intro h
    cases h with
    | held hh =>
      obtain ⟨hb, hp⟩ | ⟨hb, hp⟩ := hh
      · exact step_idle s hb hp
      · exact step_held s hb hp
    | reset rest hb hp => exact step_reset s rest hb hp
    | command c rest _ hb hp hc => exact step_of_completion hb hp hc

/-- A beat of a legal count has as many bytes as UPDATE's operand says. -/
theorem beatBytes_length (n : BitVec 7) (s : State) (hn : n.toNat ≤ 64) : (beatBytes n s).length = n.toNat := by
  simpa [beatBytes, byteCount] using hn

/-- LEN after a beat, as a number. -/
theorem len_add_count_toNat (l : DWord) (n : BitVec 7) :
    (l + n.setWidth 64).toNat = (l.toNat + n.toNat) % 2 ^ 64 := by
  have := n.isLt
  rw [BitVec.toNat_add, BitVec.toNat_setWidth, Nat.mod_eq_of_lt (a := n.toNat) (by omega)]

end Sys2Proof.Machine
end

section
/-! PROOFS. The invariants between commands (10_state.md R54): they hold at reset, each completion and the reset action keep
them, so every step does. -/

namespace Sys2Proof.Machine

/-- The reset action establishes the invariants in every state. -/
theorem sessionInv_applyReset (s : State) : SessionInv (applyReset s) where
  idle := rfl
  bufWf := wf_ofBytes _
  countIsLenMod _ := rfl
  freshIsEmpty _ := ⟨rfl, rfl, rfl⟩
  finalizedHasDigest h := nomatch h
  digestOnlyFinalized _ := rfl
  errorIsSticky h := absurd rfl h
  responseIsLast _ h := nomatch h

/-- INIT establishes the invariants but for BUF's canonical form, which it keeps. -/
theorem sessionInv_init (s : State) (hw : Memory.wf s.buf = true) : SessionInv (respond .ok none (newSession s)) where
  idle := rfl
  bufWf := hw
  countIsLenMod _ := rfl
  freshIsEmpty _ := ⟨rfl, rfl, rfl⟩
  finalizedHasDigest h := nomatch h
  digestOnlyFinalized _ := rfl
  errorIsSticky h := absurd rfl h
  responseIsLast := by rintro _ ⟨⟩; rfl

/-- An error keeps the session and records itself in ERR, LASTRESP and the response. -/
theorem sessionInv_raiseError (e : ErrorKind) (c : Command) (rest : List HostAction) {s : State} (hs : SessionInv s) :
    SessionInv (raiseError e (accept c rest s)) where
  idle := rfl
  bufWf := hs.bufWf
  countIsLenMod := hs.countIsLenMod
  freshIsEmpty := hs.freshIsEmpty
  finalizedHasDigest := hs.finalizedHasDigest
  digestOnlyFinalized := hs.digestOnlyFinalized
  errorIsSticky _ := rfl
  responseIsLast := by rintro _ ⟨⟩; rfl

/-- An absorbed beat moves BUFCNT and LEN by the same count, and 64 divides 2^64. -/
theorem sessionInv_absorbed (n : BitVec 7) (c : Command) (rest : List HostAction) {s : State} (hs : SessionInv s)
    (hn : n.toNat ≤ 64) (hp : s.phase ≠ .finalized) :
    let a := accept c rest s
    SessionInv (respond .ok none { absorbBytes a (beatBytes n a) with
      len := a.len + n.setWidth 64, phase := .accum, lastResp := .ok }) where
  idle := rfl
  bufWf := absorbBytes_wf _ _ hs.bufWf
  countIsLenMod _ := by
    have hcount := hs.countIsLenMod hp
    simp only [respond_bufcnt, respond_len, absorbBytes_bufcnt, beatBytes_length _ _ hn, len_add_count_toNat,
      accept_bufcnt, accept_len]
    omega
  freshIsEmpty h := nomatch h
  finalizedHasDigest h := nomatch h
  digestOnlyFinalized _ := by simpa using hs.digestOnlyFinalized hp
  errorIsSticky h := absurd rfl h
  responseIsLast := by rintro _ ⟨⟩; rfl

/-- A finished session holds the serialized state in DIGEST. -/
theorem sessionInv_finished (h : HashState) (s : State) (hw : Memory.wf s.buf = true) :
    SessionInv (respond .ok (some (serialize h))
      { s with h := h, digest := some (serialize h), bufcnt := 0, phase := .finalized, lastResp := .ok }) where
  idle := rfl
  bufWf := hw
  countIsLenMod hp := absurd rfl hp
  freshIsEmpty hp := nomatch hp
  finalizedHasDigest _ := ⟨rfl, rfl⟩
  digestOnlyFinalized hp := absurd rfl hp
  errorIsSticky hr := absurd rfl hr
  responseIsLast := by rintro _ ⟨⟩; rfl

/-- Every completion of an accepted command keeps the invariants. -/
theorem sessionInv_completion {c : Command} {rest : List HostAction} {s t : State} (hs : SessionInv s)
    (hc : Completion c (accept c rest s) t) : SessionInv t := by
  cases hc with
  | init => exact sessionInv_init _ hs.bufWf
  | violation => exact sessionInv_raiseError _ c rest hs
  | absorbed n _ hn hp => exact sessionInv_absorbed n c rest hs hn hp
  | finished h => exact sessionInv_finished h _ hs.bufWf
  | illegal => exact sessionInv_raiseError _ c rest hs

/-- Settles O45, by cases on the transition. -/
theorem stepKeepsSessionInvariants : Obligations.StepKeepsSessionInvariants := by
  intro s t hs h
  cases (step_next_iff s t).mp h with
  | held => exact hs
  | reset => exact sessionInv_applyReset _
  | command c rest _ _ _ hc => exact sessionInv_completion hs hc

/-- Settles O46, field by field. -/
theorem resetMeetsSessionInvariants : Obligations.ResetMeetsSessionInvariants where
  idle := rfl
  bufWf := wf_nil
  countIsLenMod _ := rfl
  freshIsEmpty _ := ⟨rfl, rfl, rfl⟩
  finalizedHasDigest h := nomatch h
  digestOnlyFinalized _ := rfl
  errorIsSticky h := absurd rfl h
  responseIsLast _ h := nomatch h

/-- Settles O41: DVALID decides whether the read answers, and the invariants say what DIGEST then holds. -/
theorem digestReadableExactlyWhenFinalized : Obligations.DigestReadableExactlyWhenFinalized := by
  intro s hs
  by_cases hp : s.phase = .finalized
  · obtain ⟨-, hd⟩ := hs.finalizedHasDigest hp
    simp [readDigest, dvalid, hp, hd]
  · simp [readDigest, dvalid, hp]

end Sys2Proof.Machine
end

section
/-! PROOFS. Stale bytes (10_state.md R32, R52): states that differ only in BUF at and above BUFCNT stay so under every
operation, so no response and no register depends on a stale byte. -/

namespace Sys2Proof.Machine

/-- States alike but for stale bytes: the second is the first with another memory, which agrees below BUFCNT. -/
theorem sameButStale_iff (s t : State) : sameButStale s t ↔
    ∃ m, t = { s with buf := m } ∧ ∀ i < s.bufcnt.toNat, Memory.read s.buf i = Memory.read m i := by
  constructor
  · rintro ⟨heq, hread⟩
    exact ⟨t.buf, congrArg (fun u : State => { u with buf := t.buf }) heq.symm, hread⟩
  · rintro ⟨m, rfl, hread⟩
    exact ⟨rfl, hread⟩

theorem sameButStale_refl (s : State) : sameButStale s s := ⟨rfl, fun _ _ => rfl⟩

/-- An operation that carries BUF along unread, and does not raise BUFCNT, keeps two states alike. -/
theorem sameButStale_map (f : State → State) (hbuf : ∀ u m, f { u with buf := m } = { f u with buf := m })
    (hcnt : ∀ u, (f u).bufcnt.toNat ≤ u.bufcnt.toNat) {s t : State} (h : sameButStale s t) :
    sameButStale (f s) (f t) := by
  obtain ⟨m, rfl, hread⟩ := (sameButStale_iff s t).mp h
  have hs : (f s).buf = s.buf := (congrArg State.buf (hbuf s s.buf) :)
  refine (sameButStale_iff _ _).mpr ⟨m, hbuf s m, fun i hi => ?_⟩
  rw [hs]
  exact hread i (hi.trans_le (hcnt s))

/-- A byte stored at BUFCNT makes one more byte agree. -/
theorem read_write_agree (m k : Memory) (c : Nat) (b : Byte) (h : ∀ i < c, Memory.read m i = Memory.read k i) (i : Nat)
    (hi : i < c + 1) : Memory.read (Memory.write m c b) i = Memory.read (Memory.write k c b) i := by
  by_cases hic : i = c
  · subst hic
    simp
  · rw [read_write_other _ _ _ _ hic, read_write_other _ _ _ _ hic, h i (by omega)]

/-- The block to compress is determined by the 64 bytes read. -/
theorem bufBlock_congr (s t : State) (h : ∀ i < 64, Memory.read s.buf i = Memory.read t.buf i) :
    bufBlock s = bufBlock t := by
  ext i hi
  simp [bufBlock, memRead, h i hi]

/-- One absorbed byte keeps two states alike: a completed block has no stale byte left. -/
theorem sameButStale_absorbByte (b : Byte) {s t : State} (h : sameButStale s t) :
    sameButStale (absorbByte s b) (absorbByte t b) := by
  obtain ⟨m, rfl, hread⟩ := (sameButStale_iff s t).mp h
  have hagree := read_write_agree s.buf m s.bufcnt.toNat b hread
  by_cases hc : s.bufcnt.toNat + 1 = 64
  · have h63 : s.bufcnt.toNat = 63 := by omega
    rw [h63] at hagree
    have hblock := bufBlock_congr { s with buf := Memory.write s.buf 63 b } { s with buf := Memory.write m 63 b } hagree
    rw [absorbByte_compress s b hc, absorbByte_compress { s with buf := m } b hc, hblock]
    exact ⟨rfl, fun i hi => absurd hi (by simp)⟩
  · have hcount := absorbByte_bufcnt s b
    have := s.bufcnt.isLt
    rw [absorbByte_buffer s b hc] at hcount ⊢
    rw [absorbByte_buffer { s with buf := m } b hc]
    exact ⟨rfl, fun i hi => hagree i (by simp only at hcount hi; omega)⟩

/-- An absorbed beat keeps two states alike. -/
theorem sameButStale_absorbBytes (bs : List Byte) {s t : State} (h : sameButStale s t) :
    sameButStale (absorbBytes s bs) (absorbBytes t bs) := by
  induction bs generalizing s t with
  | nil => exact h
  | cons b bs ih => exact ih (sameButStale_absorbByte b h)

/-- The bytes FINAL pads are below BUFCNT, so none is stale. -/
theorem bufferedBytes_congr {s t : State} (h : sameButStale s t) : bufferedBytes s = bufferedBytes t := by
  obtain ⟨m, rfl, hread⟩ := (sameButStale_iff s t).mp h
  exact List.map_congr_left fun i hi => hread i (List.mem_range.mp hi)

/-- Every completion in one of two states alike is matched in the other. -/
theorem completion_sameButStale {c : Command} {a b u : State} (h : sameButStale a b) (hc : Completion c a u) :
    ∃ v, Completion c b v ∧ sameButStale u v := by
  obtain ⟨m, rfl, -⟩ := (sameButStale_iff a b).mp h
  cases hc with
  | init hd => exact ⟨_, .init hd, sameButStale_map (fun u => respond .ok none (newSession u)) (fun _ _ => rfl) (by simp) h⟩
  | violation i hd hi hp => exact ⟨_, .violation i hd hi hp, sameButStale_map (raiseError _) (fun _ _ => rfl) (by simp) h⟩
  | absorbed n hd hn hp =>
    exact ⟨_, .absorbed n hd hn hp, sameButStale_map
      (fun u => respond .ok none { u with len := a.len + n.setWidth 64, phase := .accum, lastResp := .ok })
      (fun _ _ => rfl) (by simp) (sameButStale_absorbBytes _ h)⟩
  | finished k hd hp hk =>
    exact ⟨_, .finished k hd hp (bufferedBytes_congr h ▸ hk), sameButStale_map
      (fun u => respond .ok (some (serialize k))
        { u with h := k, digest := some (serialize k), bufcnt := 0, phase := .finalized, lastResp := .ok })
      (fun _ _ => rfl) (by simp) h⟩
  | illegal e hd => exact ⟨_, .illegal e hd, sameButStale_map (raiseError _) (fun _ _ => rfl) (by simp) h⟩

/-- Every transition of one of two states alike is matched in the other. -/
theorem transition_sameButStale {s t u : State} (h : sameButStale s t) (hu : Transition s u) :
    ∃ v, Transition t v ∧ sameButStale u v := by
  have haccept (c rest) : sameButStale (accept c rest s) (accept c rest t) :=
    sameButStale_map (accept c rest) (fun _ _ => rfl) (fun _ => le_rfl) h
  obtain ⟨m, rfl, -⟩ := (sameButStale_iff s t).mp h
  cases hu with
  | held hh => exact ⟨_, .held hh, h⟩
  | reset rest hb hp => exact ⟨_, .reset rest hb hp, sameButStale_refl _⟩
  | command c rest _ hb hp hc =>
    obtain ⟨v, hv, huv⟩ := completion_sameButStale (haccept c rest) hc
    exact ⟨v, .command c rest v hb hp hv, huv⟩

/-- One step of two states alike: both go to next states that are alike, or both are refused for the same reason. -/
theorem step_sameButStale {s t : State} (h : sameButStale s t) :
    (∃ u v, step s = .next u ∧ step t = .next v ∧ sameButStale u v) ∨
    ∃ r, step s = .refused r ∧ step t = .refused r := by
  obtain ⟨u, hsu, hu⟩ | ⟨rest, hb, hp, hr⟩ := step_transition_or_refused s
  · obtain ⟨v, hv, huv⟩ := transition_sameButStale h hu
    exact .inl ⟨u, v, hsu, (step_next_iff t v).mpr hv, huv⟩
  · obtain ⟨m, rfl, -⟩ := (sameButStale_iff s t).mp h
    exact .inr ⟨_, hr, step_reset_busy _ rest hb hp⟩

/-- States alike show the same on every observation register, and on the response port. -/
theorem observations_congr {s t : State} (h : sameButStale s t) :
    s.response = t.response ∧ statusReg s = statusReg t ∧ lenReg s = lenReg t ∧ readDigest s = readDigest t := by
  obtain ⟨m, rfl, -⟩ := (sameButStale_iff s t).mp h
  exact ⟨rfl, rfl, rfl, rfl⟩

/-- Settles O47, from the step lemma and that no observation reads BUF. -/
theorem staleBytesAreNeverRead : Obligations.StaleBytesAreNeverRead := by
  intro s t h
  obtain ⟨u, v, hs, ht, huv⟩ | ⟨r, hs, ht⟩ := step_sameButStale h
  · rw [hs, ht]
    exact ⟨huv, observations_congr huv⟩
  · rw [hs, ht]

end Sys2Proof.Machine
end

section
/-! PROOFS. What a step does to ERR, LASTRESP, LEN and the ports (10_state.md R34, R42, R43, R47; 43_accumulator.md R285). -/

namespace Sys2Proof.Machine

/-- Settles O4: `accept` is the state the statement writes out. -/
theorem stepRunsDecodedCommand : Obligations.StepRunsDecodedCommand :=
  fun s c rest i hb hp hd => step_command s c rest i hb hp hd

/-- Settles O12: every meaning ends in `respond`. -/
theorem completedCommandConsumesItsBus : Obligations.CompletedCommandConsumesItsBus := by
  intro i s t h
  rcases exec_cases i s with ⟨-, he⟩ | ⟨-, he⟩ | ⟨-, -, -, he⟩ | ⟨n, -, -, -, he⟩ | ⟨-, -, he⟩
  all_goals
    obtain rfl := Host.Outcome.next.inj (he.symm.trans h)
    simp

/-- ERR after a command: set by an error, cleared by INIT, otherwise as it was (R42). -/
theorem completion_err {c : Command} {a t : State} (h : Completion c a t) :
    t.err = if t.response.map Response.code ≠ some .ok then true
      else if decode c.word = .ok .init then false else a.err := by
  cases h with
  | init hd => simp [hd]
  | violation => simp [errorCode]
  | absorbed n hd => simp [hd]
  | finished k hd => simp [hd]
  | illegal => simp [errorCode]

/-- Settles O9, by cases on the transition. -/
theorem errIsSticky : Obligations.ErrIsSticky := by
  intro s t h
  cases (step_next_iff s t).mp h with
  | held hh =>
    obtain ⟨hb, hp⟩ | ⟨hb, -⟩ := hh
    · simp [hb, hp]
    · simp [hb]
  | reset rest hb hp => simp [hb, hp]
  | command c rest _ hb hp hc => simpa [hb, hp] using completion_err hc

/-- A completed command has responded, LASTRESP is the response's code, and INIT's is OK (R43). -/
theorem completion_response {c : Command} {a t : State} (h : Completion c a t) :
    ∃ r, t.response = some r ∧ t.lastResp = r.code ∧ (decode c.word = .ok .init → r.code = .ok) := by
  cases h with
  | init => exact ⟨_, rfl, rfl, fun _ => rfl⟩
  | violation i hd hi => exact ⟨_, rfl, rfl, fun h => absurd (Except.ok.inj (hd.symm.trans h)) hi⟩
  | absorbed => exact ⟨_, rfl, rfl, fun _ => rfl⟩
  | finished => exact ⟨_, rfl, rfl, fun _ => rfl⟩
  | illegal e hd => exact ⟨_, rfl, rfl, fun h => nomatch hd.symm.trans h⟩

/-- Code 3 is the code of no response (R104). -/
theorem respBits_ne_three (r : RespCode) : respBits r ≠ 3 := by
  cases r <;> decide

/-- The word of INIT decodes. -/
theorem decode_encode_init : decode (encode .init) = .ok .init := by decide

/-- Settles O10, from what every completion writes. -/
theorem lastRespIsCodeOfLastResponse : Obligations.LastRespIsCodeOfLastResponse := by
  intro s hb
  refine ⟨fun c rest hp => ?_, fun rest hp => ⟨_, step_reset s rest hb hp, rfl⟩, rfl, rfl, rfl⟩
  obtain ⟨t, ht, hc⟩ := step_completes s c rest hb hp
  obtain ⟨r, hr, hl, hinit⟩ := completion_response hc
  refine ⟨t, r, ht, hr, hl, respBits_ne_three _, fun hw => ?_⟩
  rw [hl, hinit (hw ▸ decode_encode_init)]
  rfl

/-- The bytes counted after a command whose word decoded to `d`: INIT starts at 0, a beat outside FINALIZED adds its count,
and anything else leaves them (R34). -/
def lenAfter (p : Phase) (len : Nat) (d : Except DecodeError Instr) : Nat :=
  match d with
  | .ok .init => 0
  | .ok (.update n) => if p = .finalized then len else (len + n.toNat) % 2 ^ 64
  | .ok .final => len
  | .error _ => len

/-- LEN after a command. -/
theorem completion_len {c : Command} {a t : State} (h : Completion c a t) :
    t.len.toNat = lenAfter a.phase a.len.toNat (decode c.word) := by
  cases h with
  | init hd => simp [hd, lenAfter]
  | violation i hd hi hp =>
    cases i with
    | init => exact absurd rfl hi
    | update n => simp [hd, lenAfter, hp]
    | final => simp [hd, lenAfter]
  | absorbed n hd hn hp => simp [hd, lenAfter, hp]
  | finished k hd => simp [hd, lenAfter]
  | illegal e hd => simp [hd, lenAfter]

/-- The bit length wraps at 2^64 (R34, 42_padding.md R221). -/
theorem bitLength_toNat (l : DWord) : (bitLength l).toNat = (8 * l.toNat) % 2 ^ 64 := BitVec.toNat_mul 8 l

/-- Settles O23, by cases on the transition. -/
theorem lenCountsMessageBytes : Obligations.LenCountsMessageBytes := by
  refine ⟨fun s t h => ?_, bitLength_toNat⟩
  cases (step_next_iff s t).mp h with
  | held hh =>
    obtain ⟨hb, hp⟩ | ⟨hb, -⟩ := hh
    · simp [hb, hp]
    · simp [hb]
  | reset rest hb hp => simp [hb, hp]
  | command c rest _ hb hp hc =>
    rw [hb, hp, completion_len hc]
    rfl

end Sys2Proof.Machine
end

section
/-! PROOFS. STATUS field by field, and the values after reset (10_state.md R38, R55). Each field of the concatenation in R38
is reached by dropping the fields below it. -/

namespace Sys2Proof.Machine

theorem statusReg_phase (s : State) : (statusReg s).extractLsb' 0 2 = phaseCode s.phase := by
  rw [statusReg, BitVec.extractLsb'_append_eq_right]

theorem statusReg_bufcnt (s : State) : (statusReg s).extractLsb' 2 6 = s.bufcnt := by
  rw [statusReg, BitVec.extractLsb'_append_eq_of_le (by decide), BitVec.extractLsb'_append_eq_right]

theorem statusReg_dvalid (s : State) : (statusReg s).getLsbD 8 = dvalid s := by
  rw [statusReg]
  iterate 3 rw [BitVec.getLsbD_append]
  simp

theorem statusReg_err (s : State) : (statusReg s).getLsbD 9 = s.err := by
  rw [statusReg]
  iterate 4 rw [BitVec.getLsbD_append]
  simp

theorem statusReg_lastResp (s : State) : (statusReg s).extractLsb' 10 2 = respBits s.lastResp := by
  rw [statusReg]
  iterate 4 rw [BitVec.extractLsb'_append_eq_of_le (by decide)]
  rw [BitVec.extractLsb'_append_eq_right]

theorem statusReg_busy (s : State) : (statusReg s).getLsbD 12 = s.busy := by
  rw [statusReg]
  iterate 6 rw [BitVec.getLsbD_append]
  simp

theorem statusReg_reserved (s : State) : (statusReg s).extractLsb' 13 19 = 0 := by
  rw [statusReg]
  iterate 5 rw [BitVec.extractLsb'_append_eq_of_le (by decide)]
  rw [BitVec.extractLsb'_append_eq_left]

/-- Settles O40, field by field. -/
theorem statusLayout : Obligations.StatusLayout := by
  refine ⟨fun s => ⟨?_, statusReg_bufcnt s, ?_, statusReg_err s, ?_, statusReg_busy s, statusReg_reserved s⟩, by decide⟩
  · rw [statusReg_phase]
    rfl
  · rw [statusReg_dvalid]
    exact decide_eq_true_iff
  · rw [statusReg_lastResp]
    rfl

/-- `CleanEntry`, one value each (70_reset_and_hazards.md R385). -/
theorem cleanEntry_iff (s : State) : cleanEntry s = true ↔
    s.h = initialHash ∧ s.bufcnt = 0 ∧ s.len = 0 ∧ s.phase = .fresh ∧ s.digest = none ∧ s.err = false ∧
      s.lastResp = .ok ∧ s.busy = false := by
  simp [cleanEntry, and_assoc]

/-- At reset STATUS reads 0 and DIGEST has no value. -/
theorem observations_of_cleanEntry {s : State} (h : cleanEntry s = true) :
    statusReg s = 0 ∧ readDigest s = .error .digestInvalid := by
  obtain ⟨-, hc, -, hp, -, he, hr, hb⟩ := (cleanEntry_iff s).mp h
  have hd : dvalid s = false := by simp [dvalid, hp]
  constructor
  · rw [statusReg, hc, hp, he, hr, hb, hd]
    decide
  · rw [readDigest, hd]
    rfl

/-- The machine right after reset is at a clean entry (R55). -/
theorem cleanEntry_reset : cleanEntry State.reset = true := by decide

/-- The reset action leads to a clean entry from every state (70_reset_and_hazards.md R370). -/
theorem cleanEntry_applyReset (s : State) : cleanEntry (applyReset s) = true := by simp [cleanEntry_iff]

/-- INIT leads to a clean entry from every state (43_accumulator.md R250). -/
theorem cleanEntry_init (s : State) : cleanEntry (respond .ok none (newSession s)) = true := by simp [cleanEntry_iff]

/-- Settles O16: all three are clean entries, which fix the values R55 lists. -/
theorem resetValues : Obligations.ResetValues := by
  intro t ht
  have hclean : cleanEntry t = true := by
    obtain rfl | ⟨s, rest, hb, hp, hs⟩ | ⟨s, hs⟩ := ht
    · exact cleanEntry_reset
    · obtain rfl := Host.Outcome.next.inj ((step_reset s rest hb hp).symm.trans hs)
      exact cleanEntry_applyReset _
    · obtain rfl := Host.Outcome.next.inj ((exec_init s).symm.trans hs)
      exact cleanEntry_init s
  obtain ⟨hstatus, hdigest⟩ := observations_of_cleanEntry hclean
  obtain ⟨hh, hc, hl, hp, -, he, hr, hb⟩ := (cleanEntry_iff t).mp hclean
  exact ⟨hh, hc, hl, hp, hdigest, he, hr, hb, hstatus⟩

end Sys2Proof.Machine
end

section
/-! PROOFS. Who may change a valid digest (10_state.md R37, 60_exceptions.md R322) and the hash state (10_state.md R31). -/

namespace Sys2Proof.Machine

/-- Only the word 0x00000001 is INIT (R107): its three fields cover every bit. -/
theorem eq_encode_init_of_decode {w : BitVec 32} (h : decode w = .ok .init) : w = encode .init := by
  obtain ⟨hr, ho, hn⟩ := (decode_ok_init w).mp h
  have hw : w = rsvdField w ++ nbytesField w ++ opField w := by
    rw [rsvdField, nbytesField, opField, BitVec.extractLsb'_append_extractLsb'_eq_extractLsb' (by rfl),
      BitVec.extractLsb'_append_extractLsb'_eq_extractLsb' (by rfl), BitVec.extractLsb'_eq_self]
  rw [hw, hr, ho, hn]
  decide

/-- Settles O42: in FINALIZED every command but INIT is an error, which leaves the session as it is. -/
theorem digestImmutableWhileValid : Obligations.DigestImmutableWhileValid := by
  intro s t hf h
  cases (step_next_iff s t).mp h with
  | held => exact .inl ⟨hf, rfl, rfl, rfl, rfl, rfl⟩
  | reset rest hb hp => exact .inr ⟨rfl, rfl, hb, .inl ⟨rest, hp⟩⟩
  | command c rest _ hb hp hc =>
    cases hc with
    | init hd => exact .inr ⟨rfl, rfl, hb, .inr ⟨c, rest, hp, eq_encode_init_of_decode hd⟩⟩
    | violation | illegal => exact .inl ⟨hf, rfl, rfl, rfl, rfl, rfl⟩
    | absorbed _ _ _ hp' | finished _ _ hp' => exact absurd hf hp'

/-- A beat that does not complete a block leaves H, and one that does compresses one block into it. -/
theorem absorbBytes_h (s : State) (bs : List Byte) (hl : bs.length ≤ 64) : (absorbBytes s bs).h = s.h ∨
    64 ≤ s.bufcnt.toNat + bs.length ∧ ∃ b, (absorbBytes s bs).h = compress s.h b := by
  induction bs generalizing s with
  | nil => exact .inl rfl
  | cons b bs ih =>
    rw [List.length_cons] at hl ⊢
    rw [absorbBytes_cons]
    have hcount := absorbByte_bufcnt s b
    by_cases hc : s.bufcnt.toNat + 1 = 64
    · obtain ⟨hrest, -⟩ := absorbBytes_buffer (absorbByte s b) bs (by omega)
      exact .inr ⟨by omega, _, by rw [hrest, absorbByte_compress s b hc]⟩
    · have hkeep : (absorbByte s b).h = s.h := by rw [absorbByte_buffer s b hc]
      have hlt := s.bufcnt.isLt
      obtain hsame | ⟨hge, k, hk⟩ := ih (absorbByte s b) (by omega)
      · exact .inl (hsame.trans hkeep)
      · exact .inr ⟨by omega, k, hkeep ▸ hk⟩

/-- Padding compresses one block or two (42_padding.md R222). -/
theorem compressBlocks_padBlocks (h : HashState) (p : List Byte) (len : DWord) :
    (∃ b, compressBlocks h (padBlocks p len) = compress h b) ∨
    ∃ b d, compressBlocks h (padBlocks p len) = compress (compress h b) d := by
  by_cases hp : p.length ≤ 55
  · exact .inl ⟨_, by simp only [padBlocks, hp, if_true]; rfl⟩
  · exact .inr ⟨_, _, by simp only [padBlocks, hp, if_false]; rfl⟩

/-- Settles O44, by cases on the transition. -/
theorem hashChangesOnlyByLoadOrCompression : Obligations.HashChangesOnlyByLoadOrCompression := by
  intro s t h hne
  cases (step_next_iff s t).mp h with
  | held => exact absurd rfl hne
  | reset rest hb hp => exact ⟨hb, .inl ⟨⟨rest, hp⟩, rfl⟩⟩
  | command c rest _ hb hp hc =>
    refine ⟨hb, .inr ⟨c, rest, hp, ?_⟩⟩
    cases hc with
    | init hd => rw [hd]; rfl
    | violation | illegal => exact absurd rfl hne
    | absorbed n hd hn =>
      rw [hd]
      have hlen := beatBytes_length n (accept c rest s) hn
      obtain hsame | hblock := absorbBytes_h (accept c rest s) (beatBytes n (accept c rest s)) (by omega)
      · exact absurd hsame hne
      · rwa [hlen] at hblock
    | finished k hd _ hk =>
      rw [hd]
      subst hk
      exact compressBlocks_padBlocks s.h _ _

end Sys2Proof.Machine
end

section
/-! PROOFS. The bytes a beat stores (43_accumulator.md R262): byte j goes to address (BUFCNT + j) mod 64, whether or not it
completes a block, and every other address reads as before; so stale bytes stay in place (log 2). -/

namespace Sys2Proof.Machine

/-- An absorbed byte is stored at BUFCNT; compressing stores nothing. -/
theorem absorbByte_buf (s : State) (b : Byte) : (absorbByte s b).buf = Memory.write s.buf s.bufcnt.toNat b := by
  by_cases hc : s.bufcnt.toNat + 1 = 64
  · have h63 : s.bufcnt.toNat = 63 := by omega
    rw [absorbByte_compress s b hc, h63]
  · rw [absorbByte_buffer s b hc]

/-- BUF after at most 64 bytes: address a holds the byte whose number is a's distance from BUFCNT, counted modulo 64, where
there is one. -/
theorem read_absorbBytes (s : State) (bs : List Byte) (hl : bs.length ≤ 64) (a : Nat) :
    Memory.read (absorbBytes s bs).buf a =
      if a < 64 ∧ (a + 64 - s.bufcnt.toNat) % 64 < bs.length then bs.getD ((a + 64 - s.bufcnt.toNat) % 64) 0
      else Memory.read s.buf a := by
  induction bs generalizing s with
  | nil => simp
  | cons b bs ih =>
    rw [List.length_cons] at hl ⊢
    have hlt := s.bufcnt.isLt
    rw [absorbBytes_cons, ih _ (by omega), absorbByte_bufcnt, absorbByte_buf]
    by_cases ha : a = s.bufcnt.toNat
    · subst ha
      have hfirst : (s.bufcnt.toNat + 64 - s.bufcnt.toNat) % 64 = 0 := by omega
      rw [if_neg (by omega), read_write_same, if_pos (by omega), hfirst, List.getD_cons_zero]
    · rw [read_write_other _ _ _ _ ha]
      by_cases ha64 : a < 64
      · have hnext : (a + 64 - s.bufcnt.toNat) % 64 = (a + 64 - (s.bufcnt.toNat + 1) % 64) % 64 + 1 := by omega
        simp only [hnext, Nat.add_lt_add_iff_right, List.getD_cons_succ]
      · rw [if_neg (by omega), if_neg (by omega)]

/-- A byte of the beat is the byte of the data bus. -/
theorem beatBytes_getD (n : BitVec 7) (s : State) (i : Nat) (hi : i < n.toNat) :
    (beatBytes n s).getD i 0 = s.dataBus.toList.getD i 0 := by
  simp [beatBytes, byteCount, List.getD_eq_getElem?_getD, hi]

/-- When a beat completes a block, the addresses from the new BUFCNT up to the old one are those it does not store to. -/
theorem read_stale_of_block_completed (n : BitVec 7) (s : State) (hn : n.toNat ≤ 64)
    (hfull : 64 ≤ s.bufcnt.toNat + n.toNat) (a : Nat) (ha : (absorbBytes s (beatBytes n s)).bufcnt.toNat ≤ a) :
    Memory.read (absorbBytes s (beatBytes n s)).buf a =
      if s.bufcnt.toNat ≤ a ∧ a < 64 then s.dataBus.toList.getD (a - s.bufcnt.toNat) 0 else Memory.read s.buf a := by
  have hlen := beatBytes_length n s hn
  have hlt := s.bufcnt.isLt
  rw [absorbBytes_bufcnt, hlen] at ha
  rw [read_absorbBytes _ _ (by omega), hlen]
  by_cases hstored : s.bufcnt.toNat ≤ a ∧ a < 64
  · have hpos : (a + 64 - s.bufcnt.toNat) % 64 = a - s.bufcnt.toNat := by omega
    rw [if_pos hstored, if_pos (by omega), hpos, beatBytes_getD n s _ (by omega)]
  · rw [if_neg hstored, if_neg (by omega)]

/-- FINAL stores nothing in BUF. -/
theorem exec_final_buf (s : State) : ∃ t, exec .final s = .next t ∧ t.buf = s.buf := by
  by_cases hp : s.phase = .finalized
  · exact ⟨_, exec_final_finalized s hp, rfl⟩
  · exact ⟨_, exec_final_returns s hp, rfl⟩

/-- Settles O19, from where a beat's bytes are stored. -/
theorem staleBytesStayInPlace : Obligations.StaleBytesStayInPlace :=
  ⟨fun n s hn hp hfull => ⟨_, exec_update_absorbs n s hn hp, read_stale_of_block_completed n s hn hfull⟩,
    fun s => ⟨⟨_, exec_init s, rfl⟩, exec_final_buf s⟩⟩

end Sys2Proof.Machine
end

section
/-! PROOFS. Platforms (10_state.md R53, 20_memory.md R83): a step at one index writes the state there only. -/

namespace Sys2Proof.Machine

/-- A step at index i is a step of the state there, put in its place. -/
theorem stepInstance_next_iff {n : Nat} (p q : Platform n) (i : Fin n) : stepInstance p i = .next q ↔
    ∃ t, step p.instances[i] = .next t ∧ q = { p with instances := p.instances.set i t } := by
  unfold stepInstance
  cases hs : step p.instances[i] with
  | next t => simp [mapNext, eq_comm]
  | fault r => simp [mapNext]
  | refused r => simp [mapNext]

/-- Settles O55: writes at two indices are seen at neither other index and commute. -/
theorem instancesAreIndependent : Obligations.InstancesAreIndependent := by
  intro n p q r i j hij hq hr
  obtain ⟨t, ht, rfl⟩ := (stepInstance_next_iff p q i).mp hq
  obtain ⟨u, hu, rfl⟩ := (stepInstance_next_iff p r j).mp hr
  have hne : (i : Nat) ≠ j := Fin.val_ne_of_ne hij
  have hj : (p.instances.set i t)[j] = p.instances[j] := Vector.getElem_set_ne _ _ hne
  have hi : (p.instances.set j u)[i] = p.instances[i] := Vector.getElem_set_ne _ _ hne.symm
  refine ⟨hj, hi, _, (stepInstance_next_iff _ _ j).mpr ⟨u, by rw [hj, hu], rfl⟩,
    (stepInstance_next_iff _ _ i).mpr ⟨t, by rw [hi, ht], ?_⟩⟩
  simp only [Vector.set_comm t u hne]

end Sys2Proof.Machine
end

section
/-! PROOFS. The command word (30_encoding.md R101, R107, R108): its three fields cover every bit, so the decoder is
injective, the encoder inverts it, and what it accepts is what `Legal` admits. -/

namespace Sys2Proof.Machine

/-- Settles O1: the encoder writes the fields the decoder reads. -/
theorem decodeEncodeRoundTrip : Obligations.DecodeEncodeRoundTrip := by
  intro i hi
  cases i with
  | init => exact decode_encode_init
  | update n =>
    obtain ⟨hr, ho, hn⟩ := Laws.EncodedFields.update n hi
    exact (decode_ok_update _ n).mpr ⟨hr, ho, hn, of_decide_eq_true hi⟩
  | final =>
    obtain ⟨hr, ho, hn⟩ := Laws.EncodedFields.final hi
    exact (decode_ok_final _).mpr ⟨hr, ho, hn⟩

/-- A word is its three fields side by side (R101). -/
theorem fields_append (w : BitVec 32) : rsvdField w ++ nbytesField w ++ opField w = w := by
  rw [rsvdField, nbytesField, opField, BitVec.extractLsb'_append_extractLsb'_eq_extractLsb' (by rfl),
    BitVec.extractLsb'_append_extractLsb'_eq_extractLsb' (by rfl), BitVec.extractLsb'_eq_self]

/-- Words with the same fields are the same word. -/
theorem eq_of_fields_eq {v w : BitVec 32} (hr : rsvdField v = rsvdField w) (ho : opField v = opField w)
    (hn : nbytesField v = nbytesField w) : v = w := by
  rw [← fields_append v, hr, ho, hn, fields_append]

/-- A command has at most one word (R107). -/
theorem decode_injective {v w : BitVec 32} {i : Instr} (hv : decode v = .ok i) (hw : decode w = .ok i) : v = w := by
  cases i with
  | init =>
    obtain ⟨vr, vo, vn⟩ := (decode_ok_init v).mp hv
    obtain ⟨wr, wo, wn⟩ := (decode_ok_init w).mp hw
    exact eq_of_fields_eq (vr.trans wr.symm) (vo.trans wo.symm) (vn.trans wn.symm)
  | update n =>
    obtain ⟨vr, vo, vn, -⟩ := (decode_ok_update v n).mp hv
    obtain ⟨wr, wo, wn, -⟩ := (decode_ok_update w n).mp hw
    exact eq_of_fields_eq (vr.trans wr.symm) (vo.trans wo.symm) (vn.trans wn.symm)
  | final =>
    obtain ⟨vr, vo, vn⟩ := (decode_ok_final v).mp hv
    obtain ⟨wr, wo, wn⟩ := (decode_ok_final w).mp hw
    exact eq_of_fields_eq (vr.trans wr.symm) (vo.trans wo.symm) (vn.trans wn.symm)

/-- The word of what the decoder accepts is the word it read. -/
theorem encode_of_decode {w : BitVec 32} {i : Instr} (h : decode w = .ok i) : encode i = w :=
  decode_injective (decodeEncodeRoundTrip i (decode_wellFormed w i h)) h

/-- `Legal(w)` as a proposition on the fields (R108). -/
theorem legal_iff (w : BitVec 32) : legal w = true ↔ rsvdField w = 0 ∧
    (opField w = 0x1 ∧ nbytesField w = 0 ∨ opField w = 0x2 ∧ (nbytesField w).toNat ≤ 64 ∨
      opField w = 0x3 ∧ nbytesField w = 0) := by
  simp [legal, or_assoc]

/-- The legal words are those the decoder accepts. -/
theorem legal_iff_decode (w : BitVec 32) : legal w = true ↔ ∃ i, decode w = .ok i := by
  rw [legal_iff]
  constructor
  · rintro ⟨hr, ⟨ho, hn⟩ | ⟨ho, hn⟩ | ⟨ho, hn⟩⟩
    · exact ⟨.init, (decode_ok_init w).mpr ⟨hr, ho, hn⟩⟩
    · exact ⟨.update _, (decode_ok_update w _).mpr ⟨hr, ho, rfl, hn⟩⟩
    · exact ⟨.final, (decode_ok_final w).mpr ⟨hr, ho, hn⟩⟩
  · rintro ⟨i, hi⟩
    cases i with
    | init =>
      obtain ⟨hr, ho, hn⟩ := (decode_ok_init w).mp hi
      exact ⟨hr, .inl ⟨ho, hn⟩⟩
    | update n =>
      obtain ⟨hr, ho, rfl, hn⟩ := (decode_ok_update w n).mp hi
      exact ⟨hr, .inr (.inl ⟨ho, hn⟩)⟩
    | final =>
      obtain ⟨hr, ho, hn⟩ := (decode_ok_final w).mp hi
      exact ⟨hr, .inr (.inr ⟨ho, hn⟩)⟩

/-- Settles O2, from the agreement with `Legal` and the encoder's inverse. -/
theorem decoderAcceptsExactlyLegalWords : Obligations.DecoderAcceptsExactlyLegalWords := by
  intro w
  cases hd : decode w with
  | ok i => exact ⟨(legal_iff_decode w).mpr ⟨i, hd⟩, decode_wellFormed w i hd, encode_of_decode hd⟩
  | error e =>
    refine Bool.eq_false_iff.mpr fun hl => ?_
    obtain ⟨i, hi⟩ := (legal_iff_decode w).mp hl
    exact nomatch hd.symm.trans hi

/-- Settles O3: the words R107 writes out are the encoder's, and the all-zero word is evaluated. -/
theorem specWordsDecode : Obligations.SpecWordsDecode :=
  ⟨decodeEncodeRoundTrip .init rfl, decodeEncodeRoundTrip (.update 0) rfl, decodeEncodeRoundTrip (.update 1) rfl,
    decodeEncodeRoundTrip (.update 3) rfl, decodeEncodeRoundTrip (.update 55) rfl, decodeEncodeRoundTrip (.update 56) rfl,
    decodeEncodeRoundTrip (.update 64) rfl, decodeEncodeRoundTrip .final rfl, by decide⟩

end Sys2Proof.Machine
end

section
/-! PROOFS. The ports of one command (30_encoding.md R100 to R104): the response and its digest, and the data bus, of which
a command reads the bytes of its beat only. -/

namespace Sys2Proof.Machine

/-- Settles O8: the count is looked at before the phase, and `raise` writes no more than ERR, LASTRESP and the ports. -/
theorem overlongUpdateIsIllegal : Obligations.OverlongUpdateIsIllegal :=
  fun n s hn => ⟨_, exec_update_overlong n s hn, rfl⟩

/-- A response without a digest gives RDIGEST no value, whatever its code. -/
theorem readRdigest_none (code : RespCode) : readRdigest ⟨code, none⟩ = .error .rdigestInvalid := by
  cases code <;> rfl

/-- Only FINAL's word decodes to FINAL, so of the other commands none has it. -/
theorem ne_encode_final {w : BitVec 32} {i : Instr} (hd : decode w = .ok i) (hi : i ≠ .final) : w ≠ encode .final := by
  rintro rfl
  exact hi (Except.ok.inj (hd.symm.trans (decodeEncodeRoundTrip .final rfl)))

/-- RDIGEST of a completed command's response: the digest of DIGEST for an OK FINAL, no value for any other (R104). -/
theorem completion_rdigest {c : Command} {a t : State} (h : Completion c a t) :
    ∃ r, t.response = some r ∧
      if r.code = .ok ∧ c.word = encode .final then ∃ d, readRdigest r = .ok d ∧ readDigest t = .ok d
      else readRdigest r = .error .rdigestInvalid := by
  cases h with
  | init hd => exact ⟨_, rfl, by rw [if_neg fun h => ne_encode_final hd (by simp) h.2, readRdigest_none]⟩
  | violation => exact ⟨_, rfl, by rw [if_neg fun h => nomatch h.1]; exact readRdigest_none _⟩
  | absorbed n hd => exact ⟨_, rfl, by rw [if_neg fun h => ne_encode_final hd (by simp) h.2, readRdigest_none]⟩
  | finished k hd => exact ⟨_, rfl, by rw [if_pos ⟨rfl, (encode_of_decode hd).symm⟩]; exact ⟨_, rfl, rfl⟩⟩
  | illegal => exact ⟨_, rfl, by rw [if_neg fun h => nomatch h.1]; exact readRdigest_none _⟩

/-- A completed command leaves what else is presented. -/
theorem completion_pending {c : Command} {a t : State} (h : Completion c a t) : t.pending = a.pending := by
  cases h <;> simp

/-- Settles O11, from the completion the step takes. -/
theorem onlyFinalRespondsWithDigest : Obligations.OnlyFinalRespondsWithDigest := by
  intro s c rest hb hp
  obtain ⟨t, ht, hc⟩ := step_completes s c rest hb hp
  obtain ⟨r, hr, hdigest⟩ := completion_rdigest hc
  exact ⟨t, r, ht, completion_pending hc, hr, hdigest⟩

/-- Absorbing a byte reads H, BUF and BUFCNT alone, and carries the rest of the state along. -/
theorem absorbByte_within (s t : State) (b : Byte) :
    absorbByte { t with h := s.h, buf := s.buf, bufcnt := s.bufcnt } b =
      { t with h := (absorbByte s b).h, buf := (absorbByte s b).buf, bufcnt := (absorbByte s b).bufcnt } := by
  by_cases hfull : s.bufcnt.toNat + 1 = 64
  · rw [absorbByte_compress s b hfull]
    exact absorbByte_compress { t with h := s.h, buf := s.buf, bufcnt := s.bufcnt } b hfull
  · rw [absorbByte_buffer s b hfull]
    exact absorbByte_buffer { t with h := s.h, buf := s.buf, bufcnt := s.bufcnt } b hfull

/-- An operation that carries H, BUF and BUFCNT along unread may be done before or after a byte is absorbed. -/
theorem absorbByte_map (f : State → State)
    (hf : ∀ u k m n, f { u with h := k, buf := m, bufcnt := n } = { f u with h := k, buf := m, bufcnt := n })
    (s : State) (b : Byte) : absorbByte (f s) b = f (absorbByte s b) :=
  calc absorbByte (f s) b
    _ = absorbByte { f s with h := s.h, buf := s.buf, bufcnt := s.bufcnt } b :=
      congrArg (absorbByte · b) (hf s s.h s.buf s.bufcnt)
    _ = f { s with h := (absorbByte s b).h, buf := (absorbByte s b).buf, bufcnt := (absorbByte s b).bufcnt } :=
      (absorbByte_within s (f s) b).trans (hf s _ _ _).symm
    _ = f (absorbByte s b) := congrArg f (absorbBytes_frame s [b]).symm

/-- The same of a sequence of bytes. -/
theorem absorbBytes_map (f : State → State)
    (hf : ∀ u k m n, f { u with h := k, buf := m, bufcnt := n } = { f u with h := k, buf := m, bufcnt := n })
    (s : State) (bs : List Byte) : absorbBytes (f s) bs = f (absorbBytes s bs) :=
  List.foldl_hom f (absorbByte_map f hf)

/-- Two data buses that agree below a count carry the same beat of that count. -/
theorem beatBytes_congr (n : BitVec 7) {a b : State}
    (h : ∀ i < n.toNat, a.dataBus.toList.getD i 0 = b.dataBus.toList.getD i 0) : beatBytes n a = beatBytes n b := by
  apply List.ext_getElem (by simp [beatBytes])
  intro i hi hi'
  have hlt : i < n.toNat := hi.trans_le (List.length_take_le _ _)
  rw [← List.getD_eq_getElem _ 0 hi, ← List.getD_eq_getElem _ 0 hi', beatBytes_getD n a i hlt, beatBytes_getD n b i hlt,
    h i hlt]

/-- A completion with one data bus is one with any other that carries the same beat: no command leaves a trace of the rest
(R102). -/
theorem completion_otherBus {c d : Command} {a t : State} {bus : Block} (hw : c.word = d.word)
    (hbus : ∀ n, decode c.word = .ok (.update n) → beatBytes n a = beatBytes n { a with dataBus := bus })
    (h : Completion c a t) : Completion d { a with dataBus := bus } t := by
  cases h with
  | init hd => exact .init (hw ▸ hd)
  | violation i hd hi hp => exact .violation (a := { a with dataBus := bus }) i (hw ▸ hd) hi hp
  | absorbed n hd hn hp =>
    have hdone := Completion.absorbed (a := { a with dataBus := bus }) n (hw ▸ hd) hn hp
    rw [absorbBytes_map (fun u => { u with dataBus := bus }) (fun _ _ _ _ => rfl) a] at hdone
    rw [hbus n hd]
    exact hdone
  | finished k hd hp hk => exact .finished (a := { a with dataBus := bus }) k (hw ▸ hd) hp hk
  | illegal e hd => exact .illegal (a := { a with dataBus := bus }) e (hw ▸ hd)

/-- Settles O22: both steps take the one completion. -/
theorem dataBeyondCountIsIgnored : Obligations.DataBeyondCountIsIgnored := by
  intro s c d rest hb hw hdata
  obtain ⟨t, ht, hc⟩ := step_completes { s with pending := .command c :: rest } c rest hb rfl
  have hd : Completion d (accept d rest { s with pending := .command d :: rest }) t :=
    completion_otherBus hw (fun n hn => beatBytes_congr n (hdata n hn)) hc
  exact ht.trans (step_of_completion (s := { s with pending := .command d :: rest }) hb rfl hd).symm

end Sys2Proof.Machine
end

section
/-! PROOFS. The packed buses (30_encoding.md R102, R103): bytes shifted in one after another stand at their places, and
four of them in a row are the big-endian word there. -/

namespace Sys2Proof.Machine

/-- Bytes shifted into a packed bus, each below the one before. -/
def shiftIn {w : Nat} (p : BitVec w) (bs : List Byte) : BitVec w := bs.foldl (fun q x => (q <<< 8) ||| x.setWidth w) p

theorem packData_eq_shiftIn (b : Block) : packData b = shiftIn 0 b.toList := rfl

theorem packDigest_eq_shiftIn (d : Digest) : packDigest d = shiftIn 0 d.toList := rfl

/-- The byte shifted in is the lowest one. -/
theorem shiftByte_low {w : Nat} (q : BitVec w) (x : Byte) (hw : 8 ≤ w) :
    ((q <<< 8) ||| x.setWidth w).extractLsb' 0 8 = x := by
  ext i hi
  simp [hi, show i < w by omega]

/-- The bytes that were there have moved up by one. -/
theorem shiftByte_high {w : Nat} (q : BitVec w) (x : Byte) (k : Nat) (hw : k + 16 ≤ w) :
    ((q <<< 8) ||| x.setWidth w).extractLsb' (k + 8) 8 = q.extractLsb' k 8 := by
  ext i hi
  have hlt : k + 8 + i < w := by omega
  have hge : ¬ k + 8 + i < 8 := by omega
  have hsub : k + 8 + i - 8 = k + i := by omega
  simp [hlt, hge, hsub, BitVec.getLsbD_of_ge x (k + 8 + i) (by omega), show k + i < w by omega]

/-- What stood in the bus stands above the bytes shifted in. -/
theorem shiftIn_above {w : Nat} (p : BitVec w) (bs : List Byte) (k : Nat) (hw : 8 * bs.length + k + 8 ≤ w) :
    (shiftIn p bs).extractLsb' (8 * bs.length + k) 8 = p.extractLsb' k 8 := by
  induction bs generalizing p k with
  | nil => simp [shiftIn]
  | cons b bs ih =>
    rw [List.length_cons] at hw ⊢
    have hplace : 8 * (bs.length + 1) + k = 8 * bs.length + (k + 8) := by omega
    rw [hplace, ← shiftByte_high p b k (by omega)]
    exact ih _ (k + 8) (by omega)

/-- Byte i of those shifted in, counted from the first, which is the highest. -/
theorem shiftIn_byte {w : Nat} (p : BitVec w) (bs : List Byte) (hw : 8 * bs.length ≤ w) (i : Nat) (hi : i < bs.length) :
    (shiftIn p bs).extractLsb' (8 * (bs.length - 1 - i)) 8 = bs[i] := by
  induction bs generalizing p i with
  | nil => exact absurd hi (by simp)
  | cons b bs ih =>
    rw [List.length_cons] at hw hi
    cases i with
    | zero =>
      have htop := shiftIn_above ((p <<< 8) ||| b.setWidth w) bs 0 (by omega)
      rwa [shiftByte_low p b (by omega)] at htop
    | succ i =>
      have hrest := ih ((p <<< 8) ||| b.setWidth w) (by omega) i (by omega)
      rwa [show bs.length - 1 - i = (b :: bs).length - 1 - (i + 1) by simp; omega] at hrest

/-- The same of a vector of bytes, which has the length its type says. -/
theorem shiftIn_vector_byte {w n : Nat} (p : BitVec w) (v : Vector Byte n) (hw : 8 * n ≤ w) (i : Nat) (hi : i < n) :
    (shiftIn p v.toList).extractLsb' (8 * (n - 1 - i)) 8 = v[i] := by
  have hbyte := shiftIn_byte p v.toList (by simpa using hw) i (by simpa using hi)
  simpa only [Vector.length_toList, Vector.getElem_toList] using hbyte

/-- R102: byte i of the packed data bus. -/
theorem packData_byte (b : Block) (i : Nat) (hi : i < 64) : (packData b).extractLsb' (504 - 8 * i) 8 = b[i] := by
  rw [packData_eq_shiftIn, show 504 - 8 * i = 8 * (64 - 1 - i) by omega,
    shiftIn_vector_byte 0 b le_rfl]

/-- R103: byte j of the packed digest bus. -/
theorem packDigest_byte (d : Digest) (j : Nat) (hj : j < 32) : (packDigest d).extractLsb' (248 - 8 * j) 8 = d[j] := by
  rw [packDigest_eq_shiftIn, show 248 - 8 * j = 8 * (32 - 1 - j) by omega,
    shiftIn_vector_byte 0 d le_rfl]

/-- A value is determined by its bytes. -/
theorem eq_of_bytes_eq {w : Nat} {p q : BitVec w}
    (h : ∀ k, 8 * k < w → p.extractLsb' (8 * k) 8 = q.extractLsb' (8 * k) 8) : p = q := by
  apply BitVec.eq_of_getLsbD_eq
  intro i hi
  have hbit := congrArg (·.getLsbD (i % 8)) (h (i / 8) (by omega))
  simpa [Nat.mod_lt, Nat.div_add_mod] using hbit

theorem unpackData_byte (p : BitVec 512) (i : Nat) (hi : i < 64) : (unpackData p)[i] = p.extractLsb' (504 - 8 * i) 8 := by
  simp [unpackData]

/-- R102: packing is a left inverse of unpacking. -/
@[simp] theorem packData_unpackData (p : BitVec 512) : packData (unpackData p) = p := by
  refine eq_of_bytes_eq fun k hk => ?_
  have hplace : 8 * k = 504 - 8 * (63 - k) := by omega
  rw [hplace, packData_byte _ _ (by omega), unpackData_byte]

/-- Four bytes in a row, read as a big-endian word, are the 32 bits they stand in. -/
theorem be32_extract {w : Nat} (x : BitVec w) (k : Nat) :
    be32 (x.extractLsb' (k + 24) 8) (x.extractLsb' (k + 16) 8) (x.extractLsb' (k + 8) 8) (x.extractLsb' k 8) =
      x.extractLsb' k 32 := by
  rw [be32, BitVec.extractLsb'_append_extractLsb'_eq_extractLsb' (by rfl),
    BitVec.extractLsb'_append_extractLsb'_eq_extractLsb' (by rfl),
    BitVec.extractLsb'_append_extractLsb'_eq_extractLsb' (by rfl)]

/-- Extending a schedule leaves the words it has. -/
theorem extendSchedule_getD (k : Nat) (ws : List Word) (j : Nat) (hj : j < ws.length) :
    (extendSchedule k ws).getD j 0 = ws.getD j 0 := by
  induction k generalizing ws with
  | zero => rfl
  | succ k ih =>
    rw [extendSchedule, ih _ (by simp; omega), List.getD_append _ _ _ _ hj]

/-- R180: the first sixteen schedule words are the block's big-endian words. -/
theorem schedule_firstWords (b : Block) (j : Nat) (hj : j < 16) :
    (schedule b).getD j 0 = be32 b[4 * j] b[4 * j + 1] b[4 * j + 2] b[4 * j + 3] := by
  rw [schedule, extendSchedule_getD _ _ _ (by simpa [firstWords] using hj)]
  have h0 : 4 * j < 64 := by omega
  have h1 : 4 * j + 1 < 64 := by omega
  have h2 : 4 * j + 2 < 64 := by omega
  have h3 : 4 * j + 3 < 64 := by omega
  simp [firstWords, hj, h0, h1, h2, h3]

/-- Settles O38: the word is read off the packed form byte by byte. -/
theorem packedDataWordsAreScheduleWords : Obligations.PackedDataWordsAreScheduleWords := by
  refine ⟨fun b i => packData_byte b i i.isLt, fun p => ⟨packData_unpackData p, fun j => ?_⟩⟩
  have hj := j.isLt
  rw [schedule_firstWords _ _ hj, ← be32_extract]
  simp only [unpackData_byte]
  congr 2 <;> omega

/-- R300: byte k of the serialized word i. -/
theorem serialize_byte (h : HashState) (i k : Nat) (hi : i < 8) (hk : k < 4) :
    (serialize h)[4 * i + k] = (unbe32 h[i])[k] := by
  have hdiv : (4 * i + k) / 4 = i := by omega
  have hmod : (4 * i + k) % 4 = k := by omega
  simp [serialize, hdiv, hmod, hi, hk]

/-- Settles O39: four bytes of the digest are a serialized word, which be32 gives back. -/
theorem packedDigestWordsAreHash : Obligations.PackedDigestWordsAreHash := by
  refine ⟨fun d j => packDigest_byte d j j.isLt, fun h i => ?_⟩
  have hi := i.isLt
  have hbyte (k : Nat) (hk : k < 4) :
      (packDigest (serialize h)).extractLsb' (224 - 32 * i.val + (24 - 8 * k)) 8 = (unbe32 h[i])[k] := by
    rw [show 224 - 32 * i.val + (24 - 8 * k) = 248 - 8 * (4 * i.val + k) by omega, packDigest_byte _ _ (by omega)]
    exact serialize_byte h i k hi hk
  calc (packDigest (serialize h)).extractLsb' (224 - 32 * i.val) 32
    _ = be32 (unbe32 h[i])[0] (unbe32 h[i])[1] (unbe32 h[i])[2] (unbe32 h[i])[3] := by
      rw [← hbyte 0, ← hbyte 1, ← hbyte 2, ← hbyte 3]
      exact (be32_extract _ _).symm
    _ = h[i] := be32_unbe32 h[i]

end Sys2Proof.Machine
end

section
/-! PROOFS. Issued sequences (30_encoding.md R111, R112; log 12): one beat issued, beats in a row, and the beats UPDATEN
cuts its data into. -/

namespace Sys2Proof.Machine

/-- The state in which an issued command runs: its data bus is driven and BUSY is 1. -/
def driven (c : Command) (s : State) : State := { s with dataBus := c.data, busy := true }

/-- An issued legal command runs its meaning with its data bus driven. -/
theorem issue_legal {c : Command} {i : Instr} {s : State} (hb : s.busy = false) (hd : decode c.word = .ok i) :
    issue c s = exec i (driven c s) :=
  step_command _ c s.pending i hb rfl hd

/-- A sequence goes on after an OK response. -/
theorem issueAll_cons_ok {c : Command} {s t : State} (cs : List Command) (h : issue c s = .next t)
    (ht : t.lastResp = .ok) : issueAll (c :: cs) s = issueAll cs t := by
  simp [issueAll, h, ht]

/-- A sequence stops at any other response (R112). -/
theorem issueAll_cons_error {c : Command} {s t : State} (cs : List Command) (h : issue c s = .next t)
    (ht : t.lastResp ≠ .ok) : issueAll (c :: cs) s = .next t := by
  simp [issueAll, h, ht]

/-- A sequence that ended with OK may be gone on with. -/
theorem issueAll_append_of_ok {cs : List Command} {s t : State} (ds : List Command) (h : issueAll cs s = .next t)
    (ht : t.lastResp = .ok) : issueAll (cs ++ ds) s = issueAll ds t := by
  induction cs generalizing s with
  | nil => rw [List.nil_append, Host.Outcome.next.inj h]
  | cons c cs ih =>
    cases hc : issue c s with
    | next u =>
      by_cases hu : u.lastResp = .ok
      · rw [issueAll_cons_ok cs hc hu] at h
        rw [List.cons_append, issueAll_cons_ok _ hc hu, ih h]
      · rw [issueAll_cons_error cs hc hu] at h
        exact absurd (Host.Outcome.next.inj h ▸ ht) hu
    | fault r => exact nomatch r
    | refused r => simp [issueAll, hc] at h

/-- What an UPDATE writes beside the bytes it absorbs, LEN becoming `l` (43_accumulator.md R262). -/
def endUpdate (l : DWord) (s : State) : State :=
  respond .ok none { s with len := l, phase := .accum, lastResp := .ok }

/-- The state after an UPDATE, or a row of them, that absorbs the given bytes. -/
def afterUpdate (s : State) (bs : List Byte) : State :=
  endUpdate (s.len + BitVec.ofNat 64 bs.length) (absorbBytes s bs)

theorem absorbBytes_driven (c : Command) (s : State) (bs : List Byte) :
    absorbBytes (driven c s) bs = driven c (absorbBytes s bs) :=
  absorbBytes_map (driven c) (fun _ _ _ _ => rfl) s bs

theorem absorbBytes_endUpdate (l : DWord) (s : State) (bs : List Byte) :
    absorbBytes (endUpdate l s) bs = endUpdate l (absorbBytes s bs) :=
  absorbBytes_map (endUpdate l) (fun _ _ _ _ => rfl) s bs

/-- A beat of at most 64 bytes fits the field NBYTES. -/
theorem beatCount_toNat {bs : List Byte} (hl : bs.length ≤ 64) : (BitVec.ofNat 7 bs.length).toNat = bs.length := by
  rw [BitVec.toNat_ofNat]
  omega

/-- The word of a beat decodes to its UPDATE. -/
theorem decode_updateCommand {bs : List Byte} (hl : bs.length ≤ 64) :
    decode (updateCommand bs).word = .ok (.update (BitVec.ofNat 7 bs.length)) :=
  decodeEncodeRoundTrip _ (decide_eq_true (by rwa [beatCount_toNat hl]))

/-- The operand of an UPDATE is the beat its data bus was driven with. -/
theorem beatBytes_driveBus {s : State} {bs : List Byte} (hl : bs.length ≤ 64) (hs : s.dataBus = driveBus bs) :
    beatBytes (BitVec.ofNat 7 bs.length) s = bs := by
  apply List.ext_getElem
  · rw [beatBytes_length _ _ (by rwa [beatCount_toNat hl]), beatCount_toNat hl]
  · intro i _ hi
    simp [beatBytes, hs, driveBus, hi]

/-- An issued beat is absorbed, outside FINALIZED. -/
theorem issue_updateCommand {s : State} {bs : List Byte} (hb : s.busy = false) (hp : s.phase ≠ .finalized)
    (hl : bs.length ≤ 64) : issue (updateCommand bs) s = .next (afterUpdate s bs) := by
  have hcount := beatCount_toNat hl
  have hlen : (BitVec.ofNat 7 bs.length).setWidth 64 = BitVec.ofNat 64 bs.length :=
    BitVec.eq_of_toNat_eq (by rw [BitVec.toNat_setWidth, hcount, BitVec.toNat_ofNat])
  have hexec := exec_update_absorbs (BitVec.ofNat 7 bs.length) (driven (updateCommand bs) s) (by rwa [hcount]) hp
  rw [beatBytes_driveBus (s := driven (updateCommand bs) s) hl rfl, absorbBytes_driven, hlen] at hexec
  exact (issue_legal hb (decode_updateCommand hl)).trans hexec

/-- In FINALIZED an issued beat is a violation. -/
theorem issue_updateCommand_finalized {s : State} {bs : List Byte} (hb : s.busy = false) (hp : s.phase = .finalized)
    (hl : bs.length ≤ 64) : issue (updateCommand bs) s = .next (raiseError .eviolation s) := by
  have hexec := exec_update_finalized (BitVec.ofNat 7 bs.length) (driven (updateCommand bs) s)
    (by rwa [beatCount_toNat hl]) hp
  exact (issue_legal hb (decode_updateCommand hl)).trans hexec

/-- Two beats in a row are as one that carries the bytes of both. -/
theorem afterUpdate_append (s : State) (as bs : List Byte) :
    afterUpdate (afterUpdate s as) bs = afterUpdate s (as ++ bs) :=
  calc afterUpdate (afterUpdate s as) bs
    _ = endUpdate (s.len + BitVec.ofNat 64 as.length + BitVec.ofNat 64 bs.length)
          (endUpdate (s.len + BitVec.ofNat 64 as.length) (absorbBytes (absorbBytes s as) bs)) := by
      rw [← absorbBytes_endUpdate]
      rfl
    _ = afterUpdate s (as ++ bs) := by
      rw [afterUpdate, absorbBytes_append, List.length_append, BitVec.ofNat_add, ← BitVec.add_assoc]
      rfl

/-- Beats in a row, at least one, absorb all their bytes (R266). -/
theorem issueAll_updateCommands {s : State} (b : List Byte) (beats : List (List Byte)) (hb : s.busy = false)
    (hp : s.phase ≠ .finalized) (hl : ∀ x ∈ b :: beats, x.length ≤ 64) :
    issueAll ((b :: beats).map updateCommand) s = .next (afterUpdate s (b :: beats).flatten) := by
  have hfirst := issue_updateCommand hb hp (hl b List.mem_cons_self)
  rw [List.map_cons, issueAll_cons_ok _ hfirst rfl]
  induction beats generalizing b s with
  | nil => simp [issueAll]
  | cons d beats ih =>
    have hnext : issue (updateCommand d) (afterUpdate s b) = .next (afterUpdate (afterUpdate s b) d) :=
      issue_updateCommand rfl (by simp [afterUpdate, endUpdate]) (hl d (by simp))
    have hrest := ih d rfl (by simp [afterUpdate, endUpdate]) (fun x hx => hl x (List.mem_cons_of_mem _ hx)) hnext
    rw [List.map_cons, issueAll_cons_ok _ hnext rfl, hrest, afterUpdate_append]
    rfl

/-- The beats UPDATEN cuts its data into: one empty beat for no data (R112). -/
def updatenBeats (data : List Byte) : List (List Byte) :=
  if data = [] then [[]] else (List.range ((data.length + 63) / 64)).map fun k => (data.drop (64 * k)).take 64

theorem updatenCommands_eq (data : List Byte) : updatenCommands data = (updatenBeats data).map updateCommand := by
  unfold updatenCommands updatenBeats
  split
  · rfl
  · rw [List.map_map]
    rfl

theorem updatenBeats_length_le (data : List Byte) : ∀ b ∈ updatenBeats data, b.length ≤ 64 := by
  unfold updatenBeats
  split
  · simp
  · simp only [List.mem_map]
    rintro _ ⟨k, -, rfl⟩
    exact List.length_take_le _ _

/-- Beats of 64 bytes in a row carry the bytes up to their end. -/
theorem flatten_beats (data : List Byte) (n : Nat) :
    ((List.range n).map fun k => (data.drop (64 * k)).take 64).flatten = data.take (64 * n) := by
  induction n with
  | zero => simp
  | succ n ih => rw [List.range_succ, List.map_append, List.flatten_append, ih, Nat.mul_succ, List.take_add]; simp

/-- UPDATEN's beats carry its data. -/
theorem flatten_updatenBeats (data : List Byte) : (updatenBeats data).flatten = data := by
  unfold updatenBeats
  split
  · next h => simp [h]
  · rw [flatten_beats, List.take_of_length_le (by omega)]

/-- There is always a first beat. -/
theorem updatenBeats_eq_cons (data : List Byte) : ∃ b beats, updatenBeats data = b :: beats := by
  refine List.exists_cons_of_ne_nil ?_
  unfold updatenBeats
  split
  · simp
  · next h =>
    have hpos := List.length_pos_of_ne_nil h
    simp only [ne_eq, List.map_eq_nil_iff, List.range_eq_nil]
    omega

/-- UPDATEN outside FINALIZED absorbs its data as one beat would (R112). -/
theorem issueAll_updatenCommands {s : State} (data : List Byte) (hb : s.busy = false) (hp : s.phase ≠ .finalized) :
    issueAll (updatenCommands data) s = .next (afterUpdate s data) := by
  obtain ⟨b, beats, hcons⟩ := updatenBeats_eq_cons data
  have hrun := issueAll_updateCommands b beats hb hp (hcons ▸ updatenBeats_length_le data)
  rwa [← hcons, flatten_updatenBeats, ← updatenCommands_eq] at hrun

/-- UPDATEN in FINALIZED is turned away at its first beat (R112, R322). -/
theorem issueAll_updatenCommands_finalized {s : State} (data : List Byte) (hb : s.busy = false)
    (hp : s.phase = .finalized) : issueAll (updatenCommands data) s = .next (raiseError .eviolation s) := by
  obtain ⟨b, beats, hcons⟩ := updatenBeats_eq_cons data
  have hl : b.length ≤ 64 := updatenBeats_length_le data b (by rw [hcons]; exact List.mem_cons_self)
  rw [updatenCommands_eq, hcons]
  exact issueAll_cons_error _ (issue_updateCommand_finalized hb hp hl) (by simp [errorCode])

/-- Settles O51, by the phase. -/
theorem updatenAbsorbsData : Obligations.UpdatenAbsorbsData := by
  intro s data hb
  by_cases hp : s.phase = .finalized
  · refine ⟨_, issueAll_updatenCommands_finalized data hb hp, ?_⟩
    rw [if_pos hp]
    exact ⟨rfl, rfl, rfl, rfl, rfl, rfl⟩
  · refine ⟨_, issueAll_updatenCommands data hb hp, ?_⟩
    rw [if_neg hp]
    exact ⟨rfl, rfl, rfl, rfl, rfl, rfl, absorbBytes_err s data⟩

end Sys2Proof.Machine
end

section
/-! PROOFS. The padded message block by block (42_padding.md R222, R225): the whole blocks of a message, then the blocks of
Pad for the rest of it. -/

namespace Sys2Proof.Machine

/-- Zero bytes in front of a byte sequence, read at an index. -/
theorem getD_replicate_append (n i : Nat) (l : List Byte) :
    (List.replicate n 0x00 ++ l).getD i 0 = if i < n then 0x00 else l.getD (i - n) 0 := by
  by_cases h : i < n
  · rw [if_pos h, List.getD_append _ _ _ _ (by simpa using h), List.getD_replicate _ h]
  · rw [if_neg h, List.getD_append_right _ _ _ _ (by simpa using Nat.le_of_not_lt h), List.length_replicate]

/-- A row of bytes, the marker, and what follows, read at an index. -/
theorem getD_append_marker (p l : List Byte) (i : Nat) : (p ++ [0x80] ++ l).getD i 0 =
    if i < p.length then p.getD i 0 else if i = p.length then 0x80 else l.getD (i - p.length - 1) 0 := by
  rcases Nat.lt_trichotomy i p.length with h | h | h
  · rw [if_pos h, List.append_assoc, List.getD_append _ _ _ _ h]
  · rw [if_neg (by omega), if_pos h, List.append_assoc, List.getD_append_right _ _ _ _ h.ge, h, Nat.sub_self]
    rfl
  · rw [if_neg (by omega), if_neg (by omega), List.getD_append_right _ _ _ _ (by simpa using h), Nat.sub_sub]
    simp

/-- With at most 55 bytes the first block is the bytes, the marker, zeros up to byte 56, and the length. -/
theorem firstBlockByte_short (p : List Byte) (len : DWord) (i : Nat) (hp : p.length ≤ 55) : firstBlockByte p len i =
    (p ++ [0x80] ++ List.replicate (55 - p.length) 0x00 ++ (unbe64 (bitLength len)).toList).getD i 0 := by
  rw [List.append_assoc (p ++ [0x80]), getD_append_marker, getD_replicate_append, firstBlockByte, if_pos hp,
    lengthBlockByte]
  rcases Nat.lt_trichotomy i p.length with hi | hi | hi
  · rw [if_pos hi, if_pos hi]
  · simp only [hi, lt_irrefl, if_false, if_true]
  · have hzero : i - p.length - 1 < 55 - p.length ↔ i < 56 := by omega
    have hplace : i - p.length - 1 - (55 - p.length) = i - 56 := by omega
    simp only [hzero, hplace]

/-- With more it is the bytes, the marker and zeros. -/
theorem firstBlockByte_long (p : List Byte) (len : DWord) (i : Nat) (hp : 55 < p.length) : firstBlockByte p len i =
    (p ++ [0x80] ++ List.replicate (63 - p.length) 0x00).getD i 0 := by
  have hzeros (k : Nat) : (List.replicate (63 - p.length) (0x00 : Byte)).getD k 0 = 0x00 := by
    rw [List.getD_eq_getElem?_getD, List.getElem?_replicate]
    split <;> rfl
  rw [getD_append_marker, hzeros, firstBlockByte, if_neg (by omega : ¬ p.length ≤ 55)]

/-- The second block is 56 zero bytes and the length. -/
theorem lengthBlockByte_eq_getD (len : DWord) (i : Nat) : lengthBlockByte len i =
    (List.replicate 56 0x00 ++ (unbe64 (bitLength len)).toList).getD i 0 :=
  (getD_replicate_append 56 i _).symm

/-- R222: with at most 55 bytes the length fits in the one block. -/
theorem padBlocks_short (p : List Byte) (len : DWord) (hp : p.length ≤ 55) : padBlocks p len =
    [driveBus (p ++ [0x80] ++ List.replicate (55 - p.length) 0x00 ++ (unbe64 (bitLength len)).toList)] := by
  simp only [padBlocks, if_pos hp, firstBlockByte_short p len _ hp, driveBus]

/-- R222: with more the length spills into a second block. -/
theorem padBlocks_long (p : List Byte) (len : DWord) (hp : 55 < p.length) : padBlocks p len =
    [driveBus (p ++ [0x80] ++ List.replicate (63 - p.length) 0x00),
      driveBus (List.replicate 56 0x00 ++ (unbe64 (bitLength len)).toList)] := by
  simp only [padBlocks, if_neg (Nat.not_le.mpr hp), firstBlockByte_long p len _ hp, lengthBlockByte_eq_getD, driveBus]

/-- The blocks of a sequence that begins with whole blocks. -/
theorem blocksOf_append (j k : Nat) (as bs : List Byte) (has : as.length = 64 * j) :
    blocksOf (j + k) (as ++ bs) = blocksOf j as ++ blocksOf k bs := by
  induction j generalizing as with
  | zero =>
    obtain rfl : as = [] := List.length_eq_zero_iff.mp has
    simp [blocksOf]
  | succ j ih =>
    have htake : (as ++ bs).take 64 = as.take 64 := List.take_append_of_le_length (by omega)
    have hdrop : (as ++ bs).drop 64 = as.drop 64 ++ bs := List.drop_append_of_le_length (by omega)
    rw [Nat.add_right_comm j 1 k, blocksOf, blocksOf, htake, hdrop, ih _ (by rw [List.length_drop]; omega),
      List.cons_append]

/-- All blocks of a sequence that begins with whole blocks. -/
theorem allBlocks_append (j : Nat) (as bs : List Byte) (has : as.length = 64 * j) :
    blocksOf ((as ++ bs).length / 64) (as ++ bs) = blocksOf j as ++ blocksOf (bs.length / 64) bs := by
  rw [← blocksOf_append j _ as bs has, List.length_append, has, Nat.mul_add_div (by omega)]

/-- The first block of 64 bytes is all of them. -/
theorem blocksOf_one (bs : List Byte) (h : bs.length = 64) : blocksOf 1 bs = [driveBus bs] := by
  rw [blocksOf, blocksOf, List.take_of_length_le h.le]

/-- 64 bytes are one block. -/
theorem allBlocks_block (bs : List Byte) (h : bs.length = 64) : blocksOf (bs.length / 64) bs = [driveBus bs] := by
  rw [h, blocksOf_one bs h]

/-- What R225 puts after a message's whole blocks, the bytes `p` being left of it. -/
def paddedTail (p : List Byte) (len : DWord) : List Byte :=
  p ++ [0x80] ++ List.replicate ((119 - p.length) % 64) 0x00 ++ (unbe64 (bitLength len)).toList

theorem paddedMessage_eq (m : List Byte) : paddedMessage m =
    m.take (64 * (m.length / 64)) ++ paddedTail (m.drop (64 * (m.length / 64))) (BitVec.ofNat 64 m.length) := by
  have hrest : m.length - 64 * (m.length / 64) = m.length % 64 := by omega
  simp only [paddedMessage, paddedTail, ← List.append_assoc, List.take_append_drop, List.length_drop, hrest]

/-- The blocks of the tail are Pad's. -/
theorem allBlocks_paddedTail (p : List Byte) (len : DWord) (hp : p.length < 64) :
    blocksOf ((paddedTail p len).length / 64) (paddedTail p len) = padBlocks p len := by
  by_cases hshort : p.length ≤ 55
  · have hzeros : (119 - p.length) % 64 = 55 - p.length := by omega
    rw [padBlocks_short p len hshort, paddedTail, hzeros]
    exact allBlocks_block _ (by simp; omega)
  · have hzeros : (119 - p.length) % 64 = (63 - p.length) + 56 := by omega
    have hfirst : (p ++ [0x80] ++ List.replicate (63 - p.length) 0x00).length = 64 := by simp; omega
    have htail : paddedTail p len = (p ++ [0x80] ++ List.replicate (63 - p.length) 0x00) ++
        (List.replicate 56 0x00 ++ (unbe64 (bitLength len)).toList) := by
      simp only [paddedTail, hzeros, List.replicate_add, List.append_assoc]
    rw [padBlocks_long p len (by omega), htail, allBlocks_append 1 _ _ hfirst, blocksOf_one _ hfirst,
      allBlocks_block _ (by simp)]
    rfl

/-- The whole blocks of a sequence do not depend on what is left of it. -/
theorem blocksOf_take (m : List Byte) :
    blocksOf (m.length / 64) (m.take (64 * (m.length / 64))) = blocksOf (m.length / 64) m := by
  have hcut := blocksOf_append (m.length / 64) 0 (m.take (64 * (m.length / 64))) (m.drop (64 * (m.length / 64)))
    (by rw [List.length_take]; omega)
  rwa [List.take_append_drop, blocksOf, List.append_nil, Nat.add_zero, eq_comm] at hcut

/-- R225: the blocks of the padded message are the message's whole blocks and Pad's blocks for the rest of it. -/
theorem allBlocks_paddedMessage (m : List Byte) :
    blocksOf ((paddedMessage m).length / 64) (paddedMessage m) =
      blocksOf (m.length / 64) m ++ padBlocks (m.drop (64 * (m.length / 64))) (BitVec.ofNat 64 m.length) := by
  rw [paddedMessage_eq, allBlocks_append (m.length / 64) _ _ (by rw [List.length_take]; omega), blocksOf_take,
    allBlocks_paddedTail _ _ (by rw [List.length_drop]; omega)]

end Sys2Proof.Machine
end

section
/-! PROOFS. A session's digest (43_accumulator.md R270, R286; 30_encoding.md R113): a session that has absorbed a message
holds its whole blocks compressed in H and the rest in BUF, so FINAL returns the digest of the padded message. -/

namespace Sys2Proof.Machine

/-- The byte that completes a block has the block compressed as BUF then holds it. -/
theorem absorbByte_h_of_full (s : State) (b : Byte) (h : s.bufcnt.toNat + 1 = 64) :
    (absorbByte s b).h = compress s.h (bufBlock (absorbByte s b)) := by
  have hblock : bufBlock (absorbByte s b) = bufBlock { s with buf := Memory.write s.buf 63 b } :=
    bufBlock_congr _ _ fun _ _ => by rw [absorbByte_compress s b h]
  rw [hblock, absorbByte_compress s b h]

/-- A full block absorbed into an empty buffer is compressed (43_accumulator.md R262). -/
theorem absorbBytes_block (s : State) (bs : List Byte) (hc : s.bufcnt = 0) (hl : bs.length = 64) :
    (absorbBytes s bs).h = compress s.h (driveBus bs) ∧ (absorbBytes s bs).bufcnt = 0 := by
  have hc0 : s.bufcnt.toNat = 0 := by rw [hc]; rfl
  have hread : bufBlock (absorbBytes s bs) = driveBus bs := by
    refine Vector.ext fun i hi => ?_
    simp [bufBlock, memRead, driveBus, read_absorbBytes s bs hl.le, hc0, hl, hi, Nat.mod_eq_of_lt hi]
  obtain ⟨front, last, rfl⟩ : ∃ front last, bs = front ++ [last] :=
    ⟨_, _, (List.dropLast_concat_getLast (List.ne_nil_of_length_pos (by omega))).symm⟩
  have hfront : front.length = 63 := by simpa using hl
  obtain ⟨hh, hcnt, -⟩ := absorbBytes_buffer s front (by omega)
  have hlast : absorbBytes s (front ++ [last]) = absorbByte (absorbBytes s front) last := absorbBytes_append s front [last]
  refine ⟨?_, BitVec.eq_of_toNat_eq ?_⟩
  · rw [← hread, hlast, absorbByte_h_of_full _ _ (by omega), hh]
  · rw [absorbBytes_bufcnt, hc0, hl]
    rfl

/-- Whole blocks absorbed into an empty buffer are compressed in order. -/
theorem absorbBytes_wholeBlocks (s : State) (k : Nat) (bs : List Byte) (hc : s.bufcnt = 0) (hl : bs.length = 64 * k) :
    (absorbBytes s bs).h = compressBlocks s.h (blocksOf k bs) ∧ (absorbBytes s bs).bufcnt = 0 := by
  induction k generalizing s bs with
  | zero =>
    obtain rfl : bs = [] := List.length_eq_zero_iff.mp hl
    exact ⟨rfl, hc⟩
  | succ k ih =>
    obtain ⟨hh, hcnt⟩ := absorbBytes_block s (bs.take 64) hc (by rw [List.length_take]; omega)
    have hrest := ih (absorbBytes s (bs.take 64)) (bs.drop 64) hcnt (by rw [List.length_drop]; omega)
    rwa [← absorbBytes_append, List.take_append_drop, hh] at hrest

/-- Less than a block absorbed into an empty buffer is buffered. -/
theorem absorbBytes_rest (s : State) (bs : List Byte) (hc : s.bufcnt = 0) (hl : bs.length < 64) :
    (absorbBytes s bs).h = s.h ∧ bufferedBytes (absorbBytes s bs) = bs := by
  have hc0 : s.bufcnt.toNat = 0 := by rw [hc]; rfl
  obtain ⟨hh, hcnt, hread⟩ := absorbBytes_buffer s bs (by omega)
  refine ⟨hh, List.ext_getElem (by simp [bufferedBytes, hcnt, hc0]) fun i _ hi => ?_⟩
  simp [bufferedBytes, hread, hc0, hi]

/-- The session of `t` has absorbed the message `m`, and nothing else, since it began. -/
structure HasAbsorbed (t : State) (m : List Byte) : Prop where
  /-- The whole blocks are compressed from IV. -/
  blocks : t.h = compressBlocks initialHash (blocksOf (m.length / 64) m)
  /-- The rest is buffered. -/
  rest : bufferedBytes t = m.drop (64 * (m.length / 64))
  /-- LEN counts the bytes. -/
  count : t.len = BitVec.ofNat 64 m.length

/-- INIT begins a session that has absorbed nothing. -/
theorem hasAbsorbed_newSession (s : State) : HasAbsorbed (respond .ok none (newSession s)) [] :=
  ⟨rfl, rfl, rfl⟩

/-- Absorbing a message from the beginning of a session. -/
theorem hasAbsorbed_afterUpdate (s : State) (m : List Byte) :
    HasAbsorbed (afterUpdate (respond .ok none (newSession s)) m) m := by
  have hwhole : (m.take (64 * (m.length / 64))).length = 64 * (m.length / 64) := by rw [List.length_take]; omega
  have hrest : (m.drop (64 * (m.length / 64))).length < 64 := by rw [List.length_drop]; omega
  obtain ⟨hh, hc⟩ := absorbBytes_wholeBlocks (respond .ok none (newSession s)) _ _ rfl hwhole
  obtain ⟨hh', hbuf⟩ := absorbBytes_rest _ _ hc hrest
  rw [← absorbBytes_append, List.take_append_drop] at hh' hbuf
  exact ⟨hh'.trans (hh.trans (by rw [blocksOf_take]; rfl)), hbuf, BitVec.zero_add _⟩

/-- The digest of a message is the digest of a session that has absorbed it, padded (R272). -/
theorem serialize_padded_eq_messageDigest {t : State} {m : List Byte} (h : HasAbsorbed t m) :
    serialize (compressBlocks t.h (padBlocks (bufferedBytes t) t.len)) = messageDigest m := by
  rw [messageDigest, allBlocks_paddedMessage, h.blocks, h.rest, h.count]
  simp only [compressBlocks, List.foldl_append]

/-- An issued INIT begins a session. -/
theorem issue_initCommand {s : State} (hb : s.busy = false) :
    issue initCommand s = .next (respond .ok none (newSession s)) := by
  rw [issue_legal (c := initCommand) hb decode_encode_init, exec_init]
  rfl

/-- An issued FINAL returns the digest of the message its session has absorbed, and DIGEST shows it. -/
theorem issue_finalCommand {s : State} {m : List Byte} (hb : s.busy = false) (hp : s.phase ≠ .finalized)
    (hm : HasAbsorbed s m) : ∃ t, issue finalCommand s = .next t ∧ t.lastResp = .ok ∧
      t.response = some ⟨.ok, some (messageDigest m)⟩ ∧ readDigest t = .ok (messageDigest m) := by
  have hd : decode finalCommand.word = .ok .final := decodeEncodeRoundTrip .final rfl
  have hexec := exec_final_returns (driven finalCommand s) hp
  rw [serialize_padded_eq_messageDigest (t := driven finalCommand s) ⟨hm.blocks, hm.rest, hm.count⟩] at hexec
  exact ⟨_, (issue_legal hb hd).trans hexec, rfl, rfl, rfl⟩

/-- HASH's UPDATEN, left out for no data, absorbs the data into the session INIT begins (R113). -/
theorem issueAll_hashCommands {s : State} (data : List Byte) (hb : s.busy = false) :
    ∃ t, issueAll (hashCommands data) s = issueAll [finalCommand] t ∧ t.busy = false ∧ t.phase ≠ .finalized ∧
      HasAbsorbed t data := by
  have hinit := issue_initCommand hb
  by_cases hdata : data = []
  · subst hdata
    exact ⟨_, issueAll_cons_ok [finalCommand] hinit rfl, rfl, by simp, hasAbsorbed_newSession s⟩
  · have hupdate := issueAll_updatenCommands (s := respond .ok none (newSession s)) data rfl (by simp)
    refine ⟨_, ?_, rfl, by simp [afterUpdate, endUpdate], hasAbsorbed_afterUpdate s data⟩
    rw [hashCommands, if_neg hdata, List.cons_append, issueAll_cons_ok _ hinit rfl, issueAll_append_of_ok _ hupdate rfl]

/-- Settles O52: HASH is INIT, the data absorbed, and FINAL. -/
theorem hashReturnsMessageDigest : Obligations.HashReturnsMessageDigest := by
  intro s data hb
  obtain ⟨t, hrun, htb, htp, hm⟩ := issueAll_hashCommands data hb
  obtain ⟨u, hu, hok, hresp, hread⟩ := issue_finalCommand htb htp hm
  exact ⟨u, by rw [hrun, issueAll_cons_ok _ hu hok, issueAll], hresp, hread⟩

end Sys2Proof.Machine
end

section
/-! PROOFS. R140 to R146 and R150 to R152 of 40_functions.md: the bit functions, the mixing functions and the
constants. -/

namespace Sys2Proof.Machine

/-- R140: in each bit position Ch chooses between its second and third argument. -/
theorem ch_getLsbD (x y z : Word) {i : Nat} (hi : i < 32) :
    (ch x y z).getLsbD i = if x.getLsbD i then y.getLsbD i else z.getLsbD i := by
  simp only [ch, BitVec.getLsbD_xor, BitVec.getLsbD_and, BitVec.getLsbD_not, hi]
  cases x.getLsbD i <;> simp

/-- The XOR of the pairwise conjunctions of three bits is their majority. -/
theorem xor_pairs_eq_majority (a b c : Bool) :
    ((a && b) ^^ (a && c) ^^ (b && c)) = decide (2 ≤ a.toNat + b.toNat + c.toNat) := by
  revert a b c
  decide

/-- R141: in each bit position Maj takes the majority of its three arguments. -/
theorem maj_getLsbD (x y z : Word) (i : Nat) :
    (maj x y z).getLsbD i =
      decide (2 ≤ (x.getLsbD i).toNat + (y.getLsbD i).toNat + (z.getLsbD i).toNat) := by
  simp only [maj, BitVec.getLsbD_xor, BitVec.getLsbD_and, xor_pairs_eq_majority]

/-- Settles O32: the two bit functions read at one bit position. -/
theorem chooseAndMajorityBits : Obligations.ChooseAndMajorityBits :=
  fun x y z i hi => ⟨ch_getLsbD x y z hi, maj_getLsbD x y z i⟩

/-- R142 by the library's rotation. -/
theorem bigSigma0_eq_rotateRight (x : Word) :
    bigSigma0 x = x.rotateRight 2 ^^^ x.rotateRight 13 ^^^ x.rotateRight 22 := by
  rw [bigSigma0, rotr_eq_rotateRight x (by decide), rotr_eq_rotateRight x (by decide),
    rotr_eq_rotateRight x (by decide)]

/-- R143 by the library's rotation. -/
theorem bigSigma1_eq_rotateRight (x : Word) :
    bigSigma1 x = x.rotateRight 6 ^^^ x.rotateRight 11 ^^^ x.rotateRight 25 := by
  rw [bigSigma1, rotr_eq_rotateRight x (by decide), rotr_eq_rotateRight x (by decide),
    rotr_eq_rotateRight x (by decide)]

/-- R144 by the library's rotation and shift. -/
theorem smallSigma0_eq_rotateRight (x : Word) :
    smallSigma0 x = x.rotateRight 7 ^^^ x.rotateRight 18 ^^^ x >>> 3 := by
  rw [smallSigma0, rotr_eq_rotateRight x (by decide), rotr_eq_rotateRight x (by decide), shr]

/-- R145 by the library's rotation and shift. -/
theorem smallSigma1_eq_rotateRight (x : Word) :
    smallSigma1 x = x.rotateRight 17 ^^^ x.rotateRight 19 ^^^ x >>> 10 := by
  rw [smallSigma1, rotr_eq_rotateRight x (by decide), rotr_eq_rotateRight x (by decide), shr]

/-- Settles O33: the mixing functions through the library's rotation, and R146's corner cases evaluated. -/
theorem mixingFunctionsAndCorners : Obligations.MixingFunctionsAndCorners :=
  ⟨fun x => ⟨bigSigma0_eq_rotateRight x, bigSigma1_eq_rotateRight x, smallSigma0_eq_rotateRight x,
    smallSigma1_eq_rotateRight x⟩, by decide⟩

/-- The first 64 primes, which R152 numbers from 0. -/
def firstPrimes : List Nat :=
  [2, 3, 5, 7, 11, 13, 17, 19, 23, 29, 31, 37, 41, 43, 47, 53, 59, 61, 67, 71, 73, 79, 83, 89, 97, 101, 103, 107, 109,
   113, 127, 131, 137, 139, 149, 151, 157, 163, 167, 173, 179, 181, 191, 193, 197, 199, 211, 223, 227, 229, 233, 239,
   241, 251, 257, 263, 269, 271, 277, 281, 283, 293, 307, 311]

/-- Trial division of the numbers up to 311 leaves the first 64 primes. -/
theorem trialDivision_eq_firstPrimes :
    ((List.range 312).filter fun n => decide (2 ≤ n) && (List.range n).all fun d => d < 2 || n % d != 0) =
      firstPrimes := by
  decide +kernel

/-- R152 for K: the cube root of each of the first 64 primes is below 7, so its whole part is found by search. -/
theorem roundConstants_cubeRoots (i : Fin 64) : ∃ q < 7,
    (q * 2 ^ 32 + roundConstants[i].toNat) ^ 3 ≤ firstPrimes.getD i.val 0 * 2 ^ 96 ∧
      firstPrimes.getD i.val 0 * 2 ^ 96 < (q * 2 ^ 32 + roundConstants[i].toNat + 1) ^ 3 := by
  revert i
  decide +kernel

/-- R152 for IV: the square root of each of the first 8 primes is below 5. -/
theorem initialHash_squareRoots (i : Fin 8) : ∃ q < 5,
    (q * 2 ^ 32 + initialHash[i].toNat) ^ 2 ≤ firstPrimes.getD i.val 0 * 2 ^ 64 ∧
      firstPrimes.getD i.val 0 * 2 ^ 64 < (q * 2 ^ 32 + initialHash[i].toNat + 1) ^ 2 := by
  revert i
  decide +kernel

/-- Settles O34: the primes listed once, then a search for the whole part of each root. -/
theorem constantsArePrimeRoots : Obligations.ConstantsArePrimeRoots := by
  unfold Obligations.ConstantsArePrimeRoots
  rw [trialDivision_eq_firstPrimes]
  refine ⟨rfl, fun i => ?_, fun i => ?_⟩
  · obtain ⟨q, -, hq⟩ := roundConstants_cubeRoots i
    exact ⟨q, hq⟩
  · obtain ⟨q, -, hq⟩ := initialHash_squareRoots i
    exact ⟨q, hq⟩

end Sys2Proof.Machine
end

section
/-! PROOFS. The message scheduler and the block compressor (41_compressor.md R180 to R195). -/

namespace Sys2Proof.Machine

/-- Each extension adds one word. -/
@[simp] theorem extendSchedule_length (k : Nat) (ws : List Word) : (extendSchedule k ws).length = ws.length + k := by
  induction k generalizing ws with
  | zero => rfl
  | succ k ih =>
    rw [extendSchedule, ih, List.length_append, List.length_singleton]
    omega

/-- The four taps lie below the word they give, so extending a schedule leaves its next word. -/
theorem nextScheduleWord_extendSchedule (k : Nat) (ws : List Word) (h : 0 < ws.length) :
    nextScheduleWord (extendSchedule k ws) ws.length = nextScheduleWord ws ws.length := by
  have htap (d : Nat) (hd : 0 < d) : (extendSchedule k ws).getD (ws.length - d) 0 = ws.getD (ws.length - d) 0 :=
    extendSchedule_getD k ws _ (by omega)
  simp only [nextScheduleWord, htap 2 (by decide), htap 7 (by decide), htap 15 (by decide), htap 16 (by decide)]

/-- The first word by which a schedule is extended is its next word. -/
theorem extendSchedule_getD_length (k : Nat) (ws : List Word) :
    (extendSchedule (k + 1) ws).getD ws.length 0 = nextScheduleWord ws ws.length := by
  rw [extendSchedule, extendSchedule_getD _ _ _ (by simp), List.getD_append_right _ _ _ _ le_rfl]
  simp

/-- R181 for every word added: it is the next word of the extended schedule at its own place. -/
theorem extendSchedule_getD_added (k : Nat) (ws : List Word) (h : 0 < ws.length) (t : Nat) (ht : ws.length ≤ t)
    (hk : t < ws.length + k) : (extendSchedule k ws).getD t 0 = nextScheduleWord (extendSchedule k ws) t := by
  induction k generalizing ws with
  | zero => omega
  | succ k ih =>
    obtain rfl | hlater := Nat.eq_or_lt_of_le ht
    · rw [extendSchedule_getD_length, nextScheduleWord_extendSchedule _ _ h]
    · exact ih (ws ++ [nextScheduleWord ws ws.length]) (by simp) (by simpa using hlater) (by simp; omega)

@[simp] theorem firstWords_length (b : Block) : (firstWords b).length = 16 := by simp [firstWords]

/-- Settles O35: the first words are the block's, and the 48 words added to them follow the recurrence. -/
theorem scheduleRecurrence : Obligations.ScheduleRecurrence := by
  intro b
  refine ⟨by simp [schedule], fun j => schedule_firstWords b j j.isLt, fun t hlow hhigh => ?_⟩
  exact extendSchedule_getD_added 48 (firstWords b) (by simp) t (by simpa using hlow) (by simpa using hhigh)

/-- R193: running one round more applies round n to the working variables after the first n. -/
theorem compressRounds_succ (ws : List Word) (n : Nat) (v : Work) :
    compressRounds ws (n + 1) v = compressRound (compressRounds ws n v) (roundConstant n) (ws.getD n 0) := by
  rw [compressRounds, List.range_succ, List.foldl_append]
  rfl

/-- R190: a compression adds the working variables after 64 rounds to the state they were loaded from. -/
theorem compress_eq (h : HashState) (b : Block) :
    compress h b = addWork h (compressRounds (schedule b) 64 (loadWork h)) := by
  rw [compress]

/-- Settles O36: the working variables after the first n rounds, for every n. -/
theorem compressIsSixtyFourRounds : Obligations.CompressIsSixtyFourRounds := by
  intro h b
  refine ⟨fun n => compressRounds (schedule b) n (loadWork h), rfl, fun t => ?_, compress_eq h b⟩
  have hk : roundConstants[t] = roundConstant t.val := roundConstants_getElem t t.isLt
  rw [hk]
  exact compressRounds_succ (schedule b) t (loadWork h)

/-- Settles O37: the four values of R194 and R195 are closed, and the kernel evaluates each on its own. -/
theorem compressKnownAnswers : Obligations.CompressKnownAnswers := by
  refine ⟨?_, ?_, ?_, ?_⟩ <;> decide +kernel

end Sys2Proof.Machine
end

section
/-! PROOFS. Pad byte for byte (42_padding.md R221 to R223, R225): the bytes of a driven block are the sequence it is driven
with, so the blocks of a sequence, read one after another, give it back. -/

namespace Sys2Proof.Machine

/-- A block driven with 64 bytes holds just them. -/
theorem driveBus_toList (bs : List Byte) (h : bs.length = 64) : (driveBus bs).toList = bs := by
  refine List.ext_getElem (by rw [Vector.length_toList, h]) fun i _ hi => ?_
  simp [driveBus, hi]

/-- Settles O26, by whether the length fits in the first block. -/
theorem padBlocksByteForByte : Obligations.PadBlocksByteForByte := by
  intro p len hp
  refine ⟨bitLength_toNat len, ?_⟩
  by_cases hshort : p.length ≤ 55
  · rw [if_pos hshort, padBlocks_short p len hshort, List.map_singleton,
      driveBus_toList _ (by simp; omega)]
  · rw [if_neg hshort, padBlocks_long p len (by omega), List.map_cons, List.map_singleton,
      driveBus_toList _ (by simp; omega), driveBus_toList _ (by simp)]

/-- The blocks of a sequence of whole blocks hold its bytes in order. -/
theorem flatten_blocksOf (k : Nat) (bs : List Byte) (h : bs.length = 64 * k) :
    ((blocksOf k bs).map Vector.toList).flatten = bs := by
  induction k generalizing bs with
  | zero =>
    obtain rfl : bs = [] := List.length_eq_zero_iff.mp h
    rfl
  | succ k ih =>
    rw [blocksOf, List.map_cons, List.flatten_cons, driveBus_toList _ (by rw [List.length_take]; omega),
      ih _ (by rw [List.length_drop]; omega), List.take_append_drop]

theorem paddedTail_length (p : List Byte) (len : DWord) :
    (paddedTail p len).length = p.length + 1 + (119 - p.length) % 64 + 8 := by
  simp only [paddedTail, List.length_append, List.length_singleton, List.length_replicate, Vector.length_toList]

/-- Pad's blocks hold what R225 puts after a message's whole blocks. -/
theorem flatten_padBlocks (p : List Byte) (len : DWord) (hp : p.length < 64) :
    ((padBlocks p len).map Vector.toList).flatten = paddedTail p len := by
  have hwhole : (paddedTail p len).length = 64 * ((paddedTail p len).length / 64) := by rw [paddedTail_length]; omega
  rw [← allBlocks_paddedTail p len hp, flatten_blocksOf _ _ hwhole]

/-- Settles O27: what is left after the whole blocks is shorter than a block, and Pad completes it. -/
theorem padCompletesMessage : Obligations.PadCompletesMessage := by
  intro m
  have hrest : (m.drop (64 * (m.length / 64))).length < 64 := by rw [List.length_drop]; omega
  have hlen : (paddedMessage m).length = m.length + 1 + (119 - m.length % 64) % 64 + 8 := by
    rw [paddedMessage_eq, List.length_append, List.length_take, paddedTail_length, List.length_drop]
    omega
  exact ⟨by rw [flatten_padBlocks _ _ hrest, paddedMessage_eq], by omega, by omega⟩

end Sys2Proof.Machine
end

section
/-! PROOFS. A session run command by command (43_accumulator.md R266, R270, R286; 70_reset_and_hazards.md R386): the beats
after INIT respond OK and leave all their bytes absorbed, and FINAL shows the digest. -/

namespace Sys2Proof.Machine

/-- A run is its first command's answer and the run that goes on from there. -/
theorem runCommands_cons_iff {c : Command} {cs : List Command} {s u : State} {rs : List Response} :
    runCommands (c :: cs) s = .next (u, rs) ↔
      ∃ t qs, issue c s = .next t ∧ runCommands cs t = .next (u, qs) ∧ t.response.toList ++ qs = rs := by
  rw [runCommands]
  cases issue c s with
  | next t =>
    cases ht : runCommands cs t with
    | next p => simp [ht, mapNext, Prod.ext_iff]
    | fault r => exact nomatch r
    | refused r => simp [ht, mapNext]
  | fault r => exact nomatch r
  | refused r => simp

/-- A run whose first command is answered. -/
theorem runCommands_cons {c : Command} {cs : List Command} {s t u : State} {r : Response} {rs : List Response}
    (hc : issue c s = .next t) (hr : t.response = some r) (hcs : runCommands cs t = .next (u, rs)) :
    runCommands (c :: cs) s = .next (u, r :: rs) :=
  runCommands_cons_iff.mpr ⟨t, rs, hc, hcs, by rw [hr]; rfl⟩

/-- A run that goes on from where another ended. -/
theorem runCommands_append {cs ds : List Command} {s t u : State} {rs qs : List Response}
    (hcs : runCommands cs s = .next (t, rs)) (hds : runCommands ds t = .next (u, qs)) :
    runCommands (cs ++ ds) s = .next (u, rs ++ qs) := by
  induction cs generalizing s rs with
  | nil =>
    obtain ⟨rfl, rfl⟩ := Prod.mk.inj (Host.Outcome.next.inj hcs)
    exact hds
  | cons c cs ih =>
    obtain ⟨v, vs, hc, hv, rfl⟩ := runCommands_cons_iff.mp hcs
    exact runCommands_cons_iff.mpr ⟨v, vs ++ qs, hc, ih hv, (List.append_assoc _ _ _).symm⟩

/-- Beats after an UPDATE each respond OK, and leave the state of one UPDATE that carries all the bytes (R266). -/
theorem runCommands_afterUpdate (s : State) (m : List Byte) (beats : List (List Byte))
    (hl : ∀ b ∈ beats, b.length ≤ 64) : runCommands (beats.map updateCommand) (afterUpdate s m) =
      .next (afterUpdate s (m ++ beats.flatten), List.replicate beats.length ⟨.ok, none⟩) := by
  induction beats generalizing m with
  | nil => simp [runCommands]
  | cons b beats ih =>
    have hissue : issue (updateCommand b) (afterUpdate s m) = .next (afterUpdate s (m ++ b)) := by
      rw [← afterUpdate_append]
      exact issue_updateCommand rfl (by simp [afterUpdate, endUpdate]) (hl b List.mem_cons_self)
    have hrest := ih (m ++ b) fun x hx => hl x (List.mem_cons_of_mem _ hx)
    rw [List.append_assoc, ← List.flatten_cons] at hrest
    exact runCommands_cons hissue rfl hrest

/-- What a session has between INIT and FINAL when no command in it was turned away. -/
structure OpenSession (t : State) (m : List Byte) : Prop where
  /-- No command executes (10_state.md R44). -/
  idle : t.busy = false
  /-- FINAL has not been given, so UPDATE and FINAL are no violation (60_exceptions.md R322). -/
  notFinalized : t.phase ≠ .finalized
  /-- INIT cleared ERR and nothing has set it (10_state.md R42). -/
  noError : t.err = false
  /-- The session holds the message so far. -/
  absorbed : HasAbsorbed t m

theorem openSession_newSession (s : State) : OpenSession (respond .ok none (newSession s)) [] :=
  ⟨rfl, by simp, rfl, hasAbsorbed_newSession s⟩

theorem openSession_afterUpdate (s : State) (m : List Byte) :
    OpenSession (afterUpdate (respond .ok none (newSession s)) m) m :=
  ⟨rfl, by simp [afterUpdate, endUpdate], absorbBytes_err _ m, hasAbsorbed_afterUpdate s m⟩

/-- INIT and beats respond OK and leave a session that has absorbed the beats' bytes, from every idle state. -/
theorem runCommands_init_updates {s : State} (beats : List (List Byte)) (hb : s.busy = false)
    (hl : ∀ b ∈ beats, b.length ≤ 64) : ∃ t, runCommands (initCommand :: beats.map updateCommand) s =
      .next (t, List.replicate (beats.length + 1) ⟨.ok, none⟩) ∧ OpenSession t beats.flatten := by
  have hinit := issue_initCommand hb
  cases beats with
  | nil => exact ⟨_, runCommands_cons hinit rfl rfl, openSession_newSession s⟩
  | cons b beats =>
    have hfirst := issue_updateCommand (s := respond .ok none (newSession s)) rfl (by simp) (hl b List.mem_cons_self)
    have hrest := runCommands_afterUpdate (respond .ok none (newSession s)) b beats
      fun x hx => hl x (List.mem_cons_of_mem _ hx)
    exact ⟨_, runCommands_cons hinit rfl (runCommands_cons hfirst rfl hrest), openSession_afterUpdate s _⟩

/-- After a FINAL in a session without an error STATUS reads 0x00000102 and LEN is as it was (R270, R286). -/
theorem registers_finalCommand {s t : State} (hb : s.busy = false) (hp : s.phase ≠ .finalized) (he : s.err = false)
    (ht : issue finalCommand s = .next t) : statusReg t = 0x00000102 ∧ lenReg t = s.len := by
  have hd : decode finalCommand.word = .ok .final := decodeEncodeRoundTrip .final rfl
  rw [issue_legal hb hd, exec_final_returns (driven finalCommand s) hp] at ht
  obtain rfl := Host.Outcome.next.inj ht
  refine ⟨?_, rfl⟩
  simp [statusReg, dvalid, driven, he, respBits, phaseCode]

/-- Settles O49: INIT and the beats leave a session that has absorbed the message, and FINAL returns its digest. -/
theorem sessionReturnsMessageDigest : Obligations.SessionReturnsMessageDigest := by
  intro s beats hb hl
  obtain ⟨u, hrun, hu⟩ := runCommands_init_updates beats hb hl
  obtain ⟨t, hfinal, -, hresp, hread⟩ := issue_finalCommand hu.idle hu.notFinalized hu.absorbed
  obtain ⟨hstatus, hlen⟩ := registers_finalCommand hu.idle hu.notFinalized hu.noError hfinal
  refine ⟨t, _, runCommands_append hrun (runCommands_cons hfinal hresp rfl), fun r => List.eq_of_mem_replicate,
    List.length_replicate, hread, hstatus, hlen.trans hu.absorbed.count⟩

end Sys2Proof.Machine
end

section
/-! PROOFS. Dispatch and the phases (43_accumulator.md R285, R280): the order in which a command is checked, and the phase
and response each command ends with. -/

namespace Sys2Proof.Machine

/-- Settles O5, by what the word decodes to. -/
theorem dispatchChecksLegalityThenPhase : Obligations.DispatchChecksLegalityThenPhase := by
  intro s c rest hb hp a raises
  have hlegal := decoderAcceptsExactlyLegalWords c.word
  cases hd : decode c.word with
  | error e =>
    rw [hd] at hlegal
    rw [if_pos hlegal]
    exact ⟨_, step_illegal s c rest e hb hp hd, rfl⟩
  | ok i =>
    rw [hd] at hlegal
    obtain ⟨hl, -, -⟩ := hlegal
    have hrun : step s = exec i a := step_command s c rest i hb hp hd
    rw [if_neg (by simp [hl])]
    cases i with
    | init =>
      obtain ⟨-, ho, -⟩ := (decode_ok_init c.word).mp hd
      rw [opField] at ho
      rwa [if_pos ho]
    | update n =>
      obtain ⟨-, ho, rfl, hn⟩ := (decode_ok_update c.word n).mp hd
      rw [opField] at ho
      rw [if_neg (by rw [ho]; decide)]
      by_cases hf : s.phase = .finalized
      · rw [if_pos hf]
        exact ⟨_, hrun.trans (exec_update_finalized _ a hn hf), rfl⟩
      · rwa [if_neg hf, if_pos ho]
    | final =>
      obtain ⟨-, ho, -⟩ := (decode_ok_final c.word).mp hd
      rw [opField] at ho
      rw [if_neg (by rw [ho]; decide)]
      by_cases hf : s.phase = .finalized
      · rw [if_pos hf]
        exact ⟨_, hrun.trans (exec_final_finalized a hf), rfl⟩
      · rw [if_neg hf, if_neg (by rw [ho]; decide)]
        exact ⟨ho, hrun⟩

/-- Settles O43, by cases on the completion: each is an entry of the table, or one for two phases. -/
theorem phaseTransitionTable : Obligations.PhaseTransitionTable := by
  intro s c rest hb hp
  obtain ⟨t, ht, hc⟩ := step_completes s c rest hb hp
  refine ⟨t, ?_⟩
  cases hc with
  | init hd => exact ⟨_, ht, rfl, by rw [hd]; rfl⟩
  | violation i hd hi hf =>
    rw [accept_phase] at hf
    cases i with
    | init => exact absurd rfl hi
    | update | final => exact ⟨_, ht, rfl, by rw [raiseError_phase, accept_phase, hd, hf]; rfl⟩
  | absorbed _ hd _ hf | finished _ hd hf =>
    rw [accept_phase] at hf
    refine ⟨_, ht, rfl, ?_⟩
    rw [hd]
    cases hphase : s.phase with
    | fresh | accum => rfl
    | finalized => exact absurd hphase hf
  | illegal e hd => exact ⟨_, ht, rfl, by rw [hd]; rfl⟩

end Sys2Proof.Machine
end

section
/-! PROOFS. UPDATE (43_accumulator.md R261 to R266): the block a beat completes, where its bytes go, what it leaves alone,
and that the cut into beats does not matter. -/

namespace Sys2Proof.Machine

/-- The block that the buffered bytes and the bytes of a beat fill, where there are enough of them. -/
def filledBlock (s : State) (bs : List Byte) : Block :=
  Vector.ofFn fun i : Fin 64 =>
    if i.val < s.bufcnt.toNat then Memory.read s.buf i.val else bs.getD (i.val - s.bufcnt.toNat) 0

/-- Absorbing the first byte of a beat, short of a full block, leaves the block it fills. -/
theorem filledBlock_absorbByte (s : State) (b : Byte) (bs : List Byte) (h : s.bufcnt.toNat + 1 < 64) :
    filledBlock (absorbByte s b) bs = filledBlock s (b :: bs) := by
  refine Vector.ext fun i hi => ?_
  have hcount : (absorbByte s b).bufcnt.toNat = s.bufcnt.toNat + 1 := by rw [absorbByte_bufcnt]; omega
  simp only [filledBlock, Vector.getElem_ofFn, hcount, absorbByte_buf]
  rcases Nat.lt_trichotomy i s.bufcnt.toNat with hlt | heq | hgt
  · rw [if_pos (by omega), if_pos hlt, read_write_other _ _ _ _ hlt.ne]
  · rw [if_pos (by omega), if_neg (by omega), heq, read_write_same, Nat.sub_self, List.getD_cons_zero]
  · have hnext : i - s.bufcnt.toNat = i - (s.bufcnt.toNat + 1) + 1 := by omega
    rw [if_neg (by omega), if_neg (by omega), hnext, List.getD_cons_succ]

/-- The byte that completes a block leaves in BUF the block filled. -/
theorem bufBlock_absorbByte_of_full (s : State) (b : Byte) (bs : List Byte) (h : s.bufcnt.toNat + 1 = 64) :
    bufBlock (absorbByte s b) = filledBlock s (b :: bs) := by
  refine Vector.ext fun i hi => ?_
  simp only [bufBlock, filledBlock, memRead, Vector.getElem_ofFn, absorbByte_buf, BitVec.toNat_ofFin]
  by_cases hlt : i < s.bufcnt.toNat
  · rw [if_pos hlt, read_write_other _ _ _ _ hlt.ne]
  · have heq : i = s.bufcnt.toNat := by omega
    rw [if_neg hlt, heq, read_write_same, Nat.sub_self, List.getD_cons_zero]

/-- A beat that completes a block has just that block compressed into H (R262). -/
theorem absorbBytes_h_of_full (s : State) (bs : List Byte) (hl : bs.length ≤ 64) (hfull : 64 ≤ s.bufcnt.toNat + bs.length) :
    (absorbBytes s bs).h = compress s.h (filledBlock s bs) := by
  have hlt := s.bufcnt.isLt
  induction bs generalizing s with
  | nil => exact absurd hfull (by simpa using hlt)
  | cons b bs ih =>
    rw [List.length_cons] at hl hfull
    have hcount := absorbByte_bufcnt s b
    rw [absorbBytes_cons]
    by_cases hc : s.bufcnt.toNat + 1 = 64
    · obtain ⟨hrest, -⟩ := absorbBytes_buffer (absorbByte s b) bs (by omega)
      rw [hrest, absorbByte_h_of_full s b hc, bufBlock_absorbByte_of_full s b bs hc]
    · have hkeep : (absorbByte s b).h = s.h := by rw [absorbByte_buffer s b hc]
      rw [ih _ (by omega) (by omega) (by omega), hkeep, filledBlock_absorbByte s b bs (by omega)]

/-- The bytes buffered after a beat that completes a block are the last of the beat. -/
theorem read_absorbBytes_of_full (s : State) (bs : List Byte) (hl : bs.length ≤ 64) (a : Nat)
    (ha : a < s.bufcnt.toNat + bs.length - 64) :
    Memory.read (absorbBytes s bs).buf a = bs.getD (64 - s.bufcnt.toNat + a) 0 := by
  have hlt := s.bufcnt.isLt
  have hplace : (a + 64 - s.bufcnt.toNat) % 64 = 64 - s.bufcnt.toNat + a := by omega
  rw [read_absorbBytes s bs hl, if_pos (by omega), hplace]

/-- The block a legal UPDATE fills, byte by byte of the data bus. -/
theorem filledBlock_beatBytes (n : BitVec 7) (s : State) (hfull : 64 ≤ s.bufcnt.toNat + n.toNat) :
    filledBlock s (beatBytes n s) = Vector.ofFn fun i : Fin 64 =>
      if i.val < s.bufcnt.toNat then Memory.read s.buf i.val else s.dataBus.toList.getD (i.val - s.bufcnt.toNat) 0 := by
  refine Vector.ext fun i hi => ?_
  simp only [filledBlock, Vector.getElem_ofFn]
  by_cases hbuf : i < s.bufcnt.toNat
  · rw [if_pos hbuf, if_pos hbuf]
  · rw [if_neg hbuf, if_neg hbuf, beatBytes_getD n s _ (by omega)]

/-- Settles O18: the beat either fits behind the buffered bytes or completes one block. -/
theorem updateAbsorbsBeat : Obligations.UpdateAbsorbsBeat := by
  intro n s hn hp c data
  have hlen := beatBytes_length n s hn
  refine ⟨_, exec_update_absorbs n s hn hp, ?_, len_add_count_toNat s.len n, rfl, rfl, rfl, rfl, absorbBytes_digest s _,
    absorbBytes_err s _, absorbBytes_pending s _, fun hfits => ?_, fun hfull => ?_⟩
  · rw [← hlen]
    exact absorbBytes_bufcnt s _
  · obtain ⟨hh, -, hread⟩ := absorbBytes_buffer s (beatBytes n s) (by rwa [hlen])
    refine ⟨hh, fun a ha => (hread a).trans ?_⟩
    rw [hlen]
    by_cases hbuf : a < c
    · rw [if_neg (by omega), if_pos hbuf]
    · rw [if_pos (by omega), if_neg hbuf, beatBytes_getD n s _ (by omega)]
  · refine ⟨?_, fun a ha => ?_⟩
    · rw [← filledBlock_beatBytes n s hfull]
      exact absorbBytes_h_of_full s _ (by rwa [hlen]) (by rwa [hlen])
    · have hread := read_absorbBytes_of_full s (beatBytes n s) (by rwa [hlen]) a (by rwa [hlen])
      exact hread.trans (beatBytes_getD n s _ (by omega))

/-- Settles O21: the beat is empty, so nothing is absorbed or counted. -/
theorem zeroLengthUpdateOnlyMovesPhase : Obligations.ZeroLengthUpdateOnlyMovesPhase := by
  intro s hp
  have hbeat : beatBytes 0 s = [] := rfl
  have hcount : s.len + (0 : BitVec 7).setWidth 64 = s.len := BitVec.add_zero s.len
  refine ⟨_, exec_update_absorbs 0 s (by decide) hp, ?_⟩
  rw [hbeat, hcount]
  rfl

/-- An UPDATE with an illegal count or in FINALIZED raises an error (R261). -/
theorem exec_update_refused (n : BitVec 7) (s : State) (h : 64 < n.toNat ∨ s.phase = .finalized) :
    ∃ e, exec (.update n) s = .next (raiseError e s) := by
  by_cases hn : n.toNat ≤ 64
  · exact ⟨_, exec_update_finalized n s hn (h.resolve_left (by omega))⟩
  · exact ⟨_, exec_update_overlong n s (by omega)⟩

/-- A byte of BUF to which a beat stores nothing reads as before. -/
theorem read_absorbBytes_of_not_stored (s : State) (bs : List Byte) (hl : bs.length ≤ 64) (a : Nat)
    (ha : ∀ j < bs.length, storedIndex s j ≠ a) : Memory.read (absorbBytes s bs).buf a = Memory.read s.buf a := by
  have hlt := s.bufcnt.isLt
  rw [read_absorbBytes s bs hl, if_neg]
  rintro ⟨ha64, hj⟩
  exact ha _ hj (by rw [storedIndex]; omega)

/-- Settles O20, by whether the UPDATE is refused or absorbs its beat. -/
theorem updateFrame : Obligations.UpdateFrame := by
  intro n s t ht
  by_cases hrefused : 64 < n.toNat ∨ s.phase = .finalized
  · obtain ⟨e, he⟩ := exec_update_refused n s hrefused
    obtain rfl := Host.Outcome.next.inj (he.symm.trans ht)
    exact ⟨rfl, rfl, rfl, fun _ _ => rfl, fun _ => ⟨rfl, rfl, rfl, rfl, rfl⟩,
      fun hn hp => absurd (hrefused.resolve_left (by omega)) hp, fun _ => rfl⟩
  · obtain ⟨hn, hp⟩ := not_or.mp hrefused
    rw [not_lt] at hn
    have hlen := beatBytes_length n s hn
    obtain rfl := Host.Outcome.next.inj ((exec_update_absorbs n s hn hp).symm.trans ht)
    exact ⟨absorbBytes_pending s _, absorbBytes_freeCount s _, absorbBytes_digest s _,
      fun a ha => read_absorbBytes_of_not_stored s _ (by rwa [hlen]) a (by rwa [hlen]),
      fun h => absurd h hrefused, fun _ _ => absorbBytes_err s _,
      fun hfits => (absorbBytes_buffer s _ (by rwa [hlen])).1⟩

/-- A row of beats outside FINALIZED responds OK to each, and leaves H, BUF, BUFCNT and LEN as one UPDATE that carries all
the bytes would; PHASE is ACCUM if there was a beat. -/
theorem runCommands_updateCommands {s : State} (beats : List (List Byte)) (hb : s.busy = false)
    (hp : s.phase ≠ .finalized) (hl : ∀ b ∈ beats, b.length ≤ 64) :
    ∃ t, runCommands (beats.map updateCommand) s = .next (t, List.replicate beats.length ⟨.ok, none⟩) ∧
      t.h = (afterUpdate s beats.flatten).h ∧ t.buf = (afterUpdate s beats.flatten).buf ∧
      t.bufcnt = (afterUpdate s beats.flatten).bufcnt ∧ t.len = (afterUpdate s beats.flatten).len ∧
      (beats ≠ [] → t.phase = .accum) := by
  cases beats with
  | nil => exact ⟨s, rfl, rfl, rfl, rfl, (BitVec.add_zero s.len).symm, fun h => absurd rfl h⟩
  | cons b beats =>
    have hfirst := issue_updateCommand hb hp (hl b List.mem_cons_self)
    have hrest := runCommands_afterUpdate s b beats fun x hx => hl x (List.mem_cons_of_mem _ hx)
    exact ⟨_, runCommands_cons hfirst rfl hrest, rfl, rfl, rfl, rfl, fun _ => rfl⟩

/-- Settles O24: both rows of beats leave what one UPDATE with all the bytes leaves. -/
theorem chunkingInvariance : Obligations.ChunkingInvariance := by
  intro s l₁ l₂ hb hp hl₁ hl₂ hflat
  obtain ⟨t₁, hrun₁, hh₁, hbuf₁, hcnt₁, hlen₁, hphase⟩ := runCommands_updateCommands l₁ hb hp hl₁
  obtain ⟨t₂, hrun₂, hh₂, hbuf₂, hcnt₂, hlen₂, -⟩ := runCommands_updateCommands l₂ hb hp hl₂
  rw [hflat] at hh₁ hbuf₁ hcnt₁ hlen₁
  exact ⟨t₁, _, t₂, _, hrun₁, hrun₂, hh₁.trans hh₂.symm, hcnt₁.trans hcnt₂.symm, hlen₁.trans hlen₂.symm,
    fun i _ => by rw [hbuf₁, hbuf₂], hphase, fun r hr => by rw [List.eq_of_mem_replicate hr]⟩

end Sys2Proof.Machine
end

section
/-! PROOFS. INIT and FINAL (43_accumulator.md R250, R272): how a session begins and ends. -/

namespace Sys2Proof.Machine

/-- Settles O15: INIT leads to a clean entry, and a second one writes the same values again. -/
theorem initStartsNewSession : Obligations.InitStartsNewSession := by
  refine ⟨fun w => ⟨eq_encode_init_of_decode, ?_⟩, fun s => ?_⟩
  · rintro rfl
    exact decode_encode_init
  · obtain ⟨hstatus, hdigest⟩ := observations_of_cleanEntry (cleanEntry_init s)
    exact ⟨_, exec_init s, rfl, hstatus, hdigest, rfl⟩

/-- BUFCNT counts the buffered bytes. -/
@[simp] theorem bufferedBytes_length (s : State) : (bufferedBytes s).length = s.bufcnt.toNat := by
  simp [bufferedBytes]

/-- Settles O25, by whether the length fits in the first padding block. -/
theorem finalPadsCompressesAndReturnsDigest : Obligations.FinalPadsCompressesAndReturnsDigest := by
  intro s hp p l h
  have hcount : p.length = s.bufcnt.toNat := bufferedBytes_length s
  have hh : compressBlocks s.h (padBlocks p s.len) = h := by
    by_cases hshort : s.bufcnt.toNat ≤ 55
    · rw [padBlocks_short p s.len (by rwa [hcount]), hcount]
      exact (if_pos hshort).symm
    · rw [padBlocks_long p s.len (by omega), hcount]
      exact (if_neg hshort).symm
  refine ⟨_, exec_final_returns s hp, ?_⟩
  rw [hh]
  rfl

end Sys2Proof.Machine
end

section
/-! PROOFS. The serializer (44_serializer.md R300, R301): the bytes of a digest, and the state they come from. -/

namespace Sys2Proof.Machine

/-- Settles O28: the four bytes are those of unbe32, most significant first. -/
theorem serializeWritesWordsBigEndian : Obligations.SerializeWritesWordsBigEndian := by
  intro h i
  have hi := i.isLt
  exact ⟨serialize_byte h i 0 hi (by decide), serialize_byte h i 1 hi (by decide),
    serialize_byte h i 2 hi (by decide), serialize_byte h i 3 hi (by decide)⟩

/-- R301: a serialized word, read big-endian, is the word. -/
theorem be32_serialize (h : HashState) (i : Fin 8) :
    be32 (serialize h)[4 * i.val] (serialize h)[4 * i.val + 1] (serialize h)[4 * i.val + 2]
      (serialize h)[4 * i.val + 3] = h[i] := by
  obtain ⟨h0, h1, h2, h3⟩ := serializeWritesWordsBigEndian h i
  rw [h0, h1, h2, h3]
  exact be32_unbe32 h[i]

/-- The eight words whose bytes a digest holds: what Serialize takes to it. -/
def deserialize (d : Digest) : HashState :=
  Vector.ofFn fun i : Fin 8 => be32 d[4 * i.val] d[4 * i.val + 1] d[4 * i.val + 2] d[4 * i.val + 3]

/-- Byte k of the word read from bytes 4i to 4i + 3 is byte 4i + k of the digest. -/
theorem unbe32_deserialize (d : Digest) (i k : Nat) (hi : i < 8) (hk : k < 4) :
    (unbe32 (deserialize d)[i])[k] = d[4 * i + k] := by
  simp only [deserialize, Vector.getElem_ofFn, unbe32_be32]
  interval_cases k <;> rfl

/-- R301: every digest is the serialization of the words read from it. -/
@[simp] theorem serialize_deserialize (d : Digest) : serialize (deserialize d) = d := by
  refine Vector.ext fun j hj => ?_
  have hdiv : j / 4 < 8 := by omega
  have hmod : j % 4 < 4 := Nat.mod_lt j (by decide)
  have hbyte : (serialize (deserialize d))[4 * (j / 4) + j % 4] = d[4 * (j / 4) + j % 4] :=
    (serialize_byte _ _ _ hdiv hmod).trans (unbe32_deserialize d _ _ hdiv hmod)
  simpa only [Nat.div_add_mod] using hbyte

/-- Settles O29: reading a digest's words big-endian inverts Serialize on both sides. -/
theorem serializeIsBijective : Obligations.SerializeIsBijective :=
  ⟨be32_serialize, fun d => ⟨deserialize d, serialize_deserialize d⟩⟩

end Sys2Proof.Machine
end

section
/-! PROOFS. Errors and the steps that complete (60_exceptions.md R321, R322, R325, R334; 70_reset_and_hazards.md R380,
R384): what makes a word illegal, what an error changes, and when a step has no next state. -/

namespace Sys2Proof.Machine

/-- R321: each cause the rule names contradicts the fields of every legal word. -/
theorem legal_eq_false_of_cause {w : BitVec 32}
    (h : opField w = 0x0 ∨ 0x4 ≤ opField w ∨ rsvdField w ≠ 0 ∨
      ((opField w = 0x1 ∨ opField w = 0x3) ∧ nbytesField w ≠ 0) ∨ (opField w = 0x2 ∧ 64 < (nbytesField w).toNat)) :
    legal w = false := by
  refine Bool.eq_false_iff.mpr fun hl => ?_
  obtain ⟨hr, hfields⟩ := (legal_iff w).mp hl
  obtain ⟨ho, hn⟩ | ⟨ho, hn⟩ | ⟨ho, hn⟩ := hfields
  · simp [hr, ho, hn] at h
  · simp [hr, ho, Nat.not_lt.mpr hn] at h
  · simp [hr, ho, hn] at h

/-- The error of R285's legality check, seen from before the acceptance: BUSY ends at 0, as it was. -/
theorem step_eillegal {s : State} {c : Command} {rest : List HostAction} (hb : s.busy = false)
    (hp : s.pending = .command c :: rest) (hl : legal c.word = false) :
    ∃ t, step s = .next t ∧ alikeButBus t { s with
      pending := rest, err := true, lastResp := .eillegal, response := some ⟨.eillegal, none⟩ } := by
  have hdispatch := dispatchChecksLegalityThenPhase s c rest hb hp
  rw [if_pos hl] at hdispatch
  obtain ⟨t, ht, hsame⟩ := hdispatch
  rw [← hb] at hsame
  exact ⟨t, ht, hsame⟩

/-- Settles O6: each cause makes the word illegal, and what an illegal word does is one step for all of them. -/
theorem illegalWordRespondsEillegal : Obligations.IllegalWordRespondsEillegal :=
  fun _ _ _ hb hp hcause => step_eillegal hb hp (legal_eq_false_of_cause hcause)

/-- Settles O13: a step takes a transition or is the one refusal. -/
theorem everyStepCompletes : Obligations.EveryStepCompletes := by
  intro s
  obtain ⟨t, ht, -⟩ | ⟨rest, hb, hp, hr⟩ := step_transition_or_refused s
  · exact .inl ⟨t, ht⟩
  · exact .inr ⟨⟨rest, hp⟩, hb, hr⟩

/-- Settles O7: in FINALIZED both commands that use the session raise the error, and INIT starts a new session. -/
theorem finalizedUseRespondsEviolation : Obligations.FinalizedUseRespondsEviolation := by
  intro s hf v
  have hraise : alikeButBus (raiseError .eviolation s) v := rfl
  exact ⟨fun n hn => ⟨_, exec_update_finalized n s hn hf, hraise⟩, ⟨_, exec_final_finalized s hf, hraise⟩,
    _, exec_init s, rfl, rfl⟩

/-- Settles O14: the held state is a transition. -/
theorem idleAndBusyHoldState : Obligations.IdleAndBusyHoldState :=
  fun s h => (step_next_iff s s).mpr (.held h)

end Sys2Proof.Machine
end

section
/-! PROOFS. Reset and the clean entry (70_reset_and_hazards.md R370, R385, R386): a clean entry is the beginning of a session,
so a run of beats and FINAL from it returns the digest of what the beats carry. -/

namespace Sys2Proof.Machine

/-- Settles O17: the reset action and INIT both write the values of R55, and reset the ports as well. -/
theorem resetActionStartsCleanSession : Obligations.ResetActionStartsCleanSession :=
  fun s rest hb hp => ⟨_, _, step_reset s rest hb hp, exec_init s, cleanEntry_applyReset _, rfl, rfl, wf_ofBytes _, rfl⟩

/-- A clean entry already holds the values that a new session is given. -/
theorem newSession_of_cleanEntry {s : State} (h : cleanEntry s = true) : newSession s = s := by
  obtain ⟨hh, hc, hl, hp, hd, he, hr, -⟩ := (cleanEntry_iff s).mp h
  rw [newSession, ← hh, ← hc, ← hl, ← hp, ← hd, ← he, ← hr]

/-- An UPDATE overwrites whatever response stood before it. -/
theorem afterUpdate_respond (code : RespCode) (d : Option Digest) (s : State) (m : List Byte) :
    afterUpdate (respond code d s) m = afterUpdate s m := by
  rw [afterUpdate, absorbBytes_map (respond code d) fun _ _ _ _ => rfl]
  rfl

/-- A clean entry is a session that has absorbed nothing. -/
theorem openSession_of_cleanEntry {s : State} (h : cleanEntry s = true) : OpenSession s [] := by
  obtain ⟨hh, hc, hl, hp, -, he, -, hb⟩ := (cleanEntry_iff s).mp h
  have hbuf : bufferedBytes s = [] := List.length_eq_zero_iff.mp (by rw [bufferedBytes_length, hc]; rfl)
  exact ⟨hb, by simp [hp], he, hh, hbuf, hl⟩

/-- Beats from a clean entry respond OK and leave a session that has absorbed their bytes. -/
theorem runCommands_updates_of_cleanEntry {s : State} (beats : List (List Byte)) (h : cleanEntry s = true)
    (hl : ∀ b ∈ beats, b.length ≤ 64) : ∃ t, runCommands (beats.map updateCommand) s =
      .next (t, List.replicate beats.length ⟨.ok, none⟩) ∧ OpenSession t beats.flatten := by
  have hs := openSession_of_cleanEntry h
  cases beats with
  | nil => exact ⟨s, rfl, hs⟩
  | cons b beats =>
    have hfirst := issue_updateCommand hs.idle hs.notFinalized (hl b List.mem_cons_self)
    have hrest := runCommands_afterUpdate s b beats fun x hx => hl x (List.mem_cons_of_mem _ hx)
    have hopen := openSession_afterUpdate s (b :: beats).flatten
    rw [newSession_of_cleanEntry h, afterUpdate_respond] at hopen
    exact ⟨_, runCommands_cons hfirst rfl hrest, hopen⟩

/-- Beats and FINAL from a clean entry: every response is OK, and the last carries the digest of the message. -/
theorem runCommands_final_of_cleanEntry {s : State} (beats : List (List Byte)) (h : cleanEntry s = true)
    (hl : ∀ b ∈ beats, b.length ≤ 64) : ∃ t, runCommands (beats.map updateCommand ++ [finalCommand]) s =
      .next (t, List.replicate beats.length ⟨.ok, none⟩ ++ [⟨.ok, some (messageDigest beats.flatten)⟩]) := by
  obtain ⟨u, hrun, hu⟩ := runCommands_updates_of_cleanEntry beats h hl
  obtain ⟨t, hfinal, -, hresp, -⟩ := issue_finalCommand hu.idle hu.notFinalized hu.absorbed
  exact ⟨t, runCommands_append hrun (runCommands_cons hfinal hresp rfl)⟩

/-- Settles O50: a run has one outcome, whose last response carries the message's digest. -/
theorem cleanEntryRunProducesMessageDigest : Obligations.CleanEntryRunProducesMessageDigest := by
  intro s beats d h hl
  obtain ⟨t, hrun⟩ := runCommands_final_of_cleanEntry beats h hl
  constructor
  · rintro ⟨-, -, -, u, rs, hu, -⟩
    obtain ⟨-, hresponses⟩ := Prod.mk.inj (Host.Outcome.next.inj (hu.symm.trans hrun))
    simpa using congrArg List.getLast? hresponses
  · rintro rfl
    exact ⟨h, hl, rfl, t, _, hrun, fun r hr => by rw [List.eq_of_mem_replicate hr]⟩

end Sys2Proof.Machine
end

section
/-! PROOFS. The timed binding (70_reset_and_hazards.md R380 to R384): a run of ticks is the tick that accepts the command, the
ticks in which it is in flight, and the one in which it takes its effect. -/

namespace Sys2Proof.Machine

/-- R383: every latency is one tick and an open amount. -/
theorem one_le_latency (w : BitVec 32) (s : State) : 1 ≤ latency w s := by
  unfold latency
  split
  all_goals exact Nat.le_add_right 1 _

/-- An illegal word has the latency of an error response in every state. -/
theorem latency_of_illegal {w : BitVec 32} (h : legal w = false) (s : State) : latency w s = 1 + Config.latErrExtra := by
  cases hd : decode w with
  | ok i => exact absurd ((legal_iff_decode w).mpr ⟨i, hd⟩) (by simp [h])
  | error e => simp only [latency, hd]

/-- Of the state a latency sees PHASE and BUFCNT alone (R382). -/
theorem latency_congr_state (w : BitVec 32) {s t : State} (hp : s.phase = t.phase) (hc : s.bufcnt = t.bufcnt) :
    latency w s = latency w t := by
  unfold latency
  rw [hp, hc]

/-- Settles O54: two illegal words both have LAT_ERR, and two legal ones with the same OP and NBYTES are the same word. -/
theorem latencyDependsOnPermittedInputs : Obligations.LatencyDependsOnPermittedInputs := by
  refine fun v w s t => ⟨one_le_latency w s, fun ho hn hl hp hc => ?_⟩
  cases hw : legal w with
  | false => rw [latency_of_illegal (hl.trans hw), latency_of_illegal hw]
  | true =>
    obtain ⟨hrw, -⟩ := (legal_iff w).mp hw
    obtain ⟨hrv, -⟩ := (legal_iff v).mp (hl.trans hw)
    rw [eq_of_fields_eq (hrv.trans hrw.symm) ho hn, latency_congr_state w hp hc]

/-- The command word `w` in flight, accepted in the state `a`, with `n` ticks left. -/
def inFlight (w : BitVec 32) (a : State) (n clock : Nat) : TimedState :=
  { core := a, running := some ⟨w, n⟩, clock := clock }

/-- The tick that accepts a presented command puts it in flight for its latency (R380 item 1). -/
theorem timedTick_accepts {t : TimedState} {c : Command} {rest : List HostAction} (hr : t.running = none)
    (hb : t.core.busy = false) (hp : t.core.pending = .command c :: rest) :
    timedTick t = .next (inFlight c.word (accept c rest t.core) (latency c.word t.core) (t.clock + 1)) := by
  simp only [timedTick, timedAccept, hr, hb, hp, inFlight]

/-- With no reset presented a command in flight makes progress. -/
theorem timedTick_inFlight {w : BitVec 32} {a : State} (n clock : Nat) (hp : ∀ more, a.pending ≠ .reset :: more) :
    timedTick (inFlight w a n clock) = timedProgress (inFlight w a n clock) ⟨w, n⟩ := by
  match h : a.pending with
  | [] => simp only [timedTick, inFlight, h]
  | .command _ :: _ => simp only [timedTick, inFlight, h]
  | .reset :: more => exact absurd h (hp more)

/-- Before its last tick a command in flight counts down and leaves the state as its acceptance did (R380 item 3). -/
theorem timedTick_countsDown {w : BitVec 32} {a : State} {n : Nat} (clock : Nat) (hn : 1 ≤ n)
    (hp : ∀ more, a.pending ≠ .reset :: more) :
    timedTick (inFlight w a (n + 1) clock) = .next (inFlight w a n (clock + 1)) := by
  rw [timedTick_inFlight _ _ hp, timedProgress, if_neg (Nat.not_le.mpr (Nat.lt_add_one_of_le hn))]
  rfl

/-- In its last tick a command in flight takes its whole effect (R380 item 2). -/
theorem timedTick_completes {w : BitVec 32} {a u : State} (clock : Nat) (hp : ∀ more, a.pending ≠ .reset :: more)
    (hu : execute (decodeAccepted w a) = .next u) :
    timedTick (inFlight w a 1 clock) = .next { core := u, running := none, clock := clock + 1 } := by
  rw [timedTick_inFlight _ _ hp, timedProgress, if_pos le_rfl]
  simp only [inFlight, hu, mapNext]

/-- A run of ticks after its first. -/
theorem timedRun_succ {t u : TimedState} (n : Nat) (h : timedTick t = .next u) : timedRun (n + 1) t = timedRun n u := by
  rw [timedRun, h]

/-- Ticks short of the last leave the command in flight. -/
theorem timedRun_inFlight {w : BitVec 32} {a : State} {n : Nat} (k clock : Nat) (hn : 1 ≤ n)
    (hp : ∀ more, a.pending ≠ .reset :: more) :
    timedRun k (inFlight w a (n + k) clock) = .next (inFlight w a n (clock + k)) := by
  induction k generalizing clock with
  | zero => rfl
  | succ k ih =>
    rw [← Nat.add_assoc, timedRun_succ k (timedTick_countsDown clock (by omega) hp), ih, Nat.add_right_comm]
    rfl

/-- A command in flight for `n` ticks has taken its effect after them. -/
theorem timedRun_completes {w : BitVec 32} {a u : State} {n : Nat} (clock : Nat) (hn : 1 ≤ n)
    (hp : ∀ more, a.pending ≠ .reset :: more) (hu : execute (decodeAccepted w a) = .next u) :
    timedRun n (inFlight w a n clock) = .next { core := u, running := none, clock := clock + n } := by
  induction n, hn using Nat.le_induction generalizing clock with
  | base => exact timedRun_succ 0 (timedTick_completes clock hp hu)
  | succ n hn ih =>
    rw [timedRun_succ n (timedTick_countsDown clock hn hp), ih, Nat.add_right_comm]
    rfl

/-- While BUSY = 1, STATUS bit 12 reads 1 and the reserved bits 0 (R380 item 4). -/
theorem timedStatus_of_busy {t : TimedState} (h : t.core.busy = true) : (timedStatus t).extractLsb' 12 20 = 1 := by
  rw [timedStatus, if_pos h, BitVec.extractLsb'_append_eq_left]
  rfl

/-- The step that takes a command is what becomes of its word in the accepted state. -/
theorem step_eq_execute_accepted {s : State} {c : Command} {rest : List HostAction} (hb : s.busy = false)
    (hp : s.pending = .command c :: rest) : step s = execute (decodeAccepted c.word (accept c rest s)) := by
  simp only [step, fetch, hb, hp]

/-- A completed command leaves BUSY = 0 (R380 item 2). -/
theorem completion_busy {c : Command} {a t : State} (h : Completion c a t) : t.busy = false := by
  cases h
  all_goals rfl

/-- Settles O53: one tick accepts the command, and the step's state stands when its latency is over. -/
theorem timedBindingRefinesAtomicStep : Obligations.TimedBindingRefinesAtomicStep := by
  intro t c rest u hr hb hp hrest hu
  have haccept := timedTick_accepts hr hb hp
  have hcompletes : execute (decodeAccepted c.word (accept c rest t.core)) = .next u :=
    (step_eq_execute_accepted hb hp).symm.trans hu
  refine ⟨?_, ?_, fun k hk hkl => ?_⟩
  · rw [Nat.add_comm 1, timedRun_succ _ haccept, timedRun_completes _ (one_le_latency _ _) hrest hcompletes]
  · obtain ⟨v, hv, hc⟩ := step_completes t.core c rest hb hp
    obtain rfl := Host.Outcome.next.inj (hu.symm.trans hv)
    exact completion_busy hc
  · obtain ⟨j, rfl⟩ := Nat.exists_eq_add_of_le' hk
    obtain ⟨n, hn⟩ := Nat.exists_eq_add_of_lt hkl
    have hleft : latency c.word t.core = n + 1 + j := by omega
    rw [hleft] at haccept
    refine ⟨_, (timedRun_succ j haccept).trans (timedRun_inFlight j _ (Nat.le_add_left 1 n) hrest), rfl, rfl, ?_⟩
    exact timedStatus_of_busy rfl

end Sys2Proof.Machine
end
